-- ==== Sys2Proof/Word.lean ====
section
/-! DEFINITION. Bytes, four-byte words, sixteen-byte blocks and the round-key store's type, with the one operation
all of them share, the exclusive-or (`00_scope.md` R9 to R11, `20_memory.md` R47). -/

namespace Sys2Proof

/-- R9: an 8-bit value. -/
abbrev Byte := BitVec 8

/-- R11: a word is a sequence of exactly four bytes, `b0` the first; no rule reads a word as an integer. -/
structure Word where
  b0 : Byte
  b1 : Byte
  b2 : Byte
  b3 : Byte
deriving DecidableEq, Repr, Inhabited

/-- R10, R47: a block is sixteen bytes, held as the four columns of the cipher state: column `c` is the bytes
`B[4c], B[4c+1], B[4c+2], B[4c+3]`, and `s[r][c]` is byte `r` of column `c`. -/
structure Block where
  c0 : Word
  c1 : Word
  c2 : Word
  c3 : Word
deriving DecidableEq, Repr, Inhabited

/-- R20: the 44 words of the round-key store `RK`. -/
abbrev RoundKeys := Vector Word 44

/-- R71, R76: a packet is a finite byte sequence. -/
abbrev Packet := List Byte

/-- R10: exclusive-or of two words, byte by byte. -/
def Word.xor (v w : Word) : Word :=
  ⟨v.b0 ^^^ w.b0, v.b1 ^^^ w.b1, v.b2 ^^^ w.b2, v.b3 ^^^ w.b3⟩

/-- R10: exclusive-or of two blocks, byte by byte. -/
def Block.xor (s t : Block) : Block :=
  ⟨s.c0.xor t.c0, s.c1.xor t.c1, s.c2.xor t.c2, s.c3.xor t.c3⟩

end Sys2Proof
end

