-- ==== Sys2Proof/Machine/Tables.lean ====
section
/-! DEFINITION. The constant tables `SBOX`, `INVSBOX` and `RCON` (`20_memory.md` R41 to R45): constants, not state.
Their contents are the spec's, which marks them as general knowledge. PRESUMED (log entry 9). -/

namespace Sys2Proof.Machine

/-- R43: row `hi` of the table of `SBOX`, its sixteen bytes written in column order, column 0 first. -/
def sboxRow (hi : Nat) : Nat :=
  match hi with
  | 0 => 0x637c777bf26b6fc53001672bfed7ab76
  | 1 => 0xca82c97dfa5947f0add4a2af9ca472c0
  | 2 => 0xb7fd9326363ff7cc34a5e5f171d83115
  | 3 => 0x04c723c31896059a071280e2eb27b275
  | 4 => 0x09832c1a1b6e5aa0523bd6b329e32f84
  | 5 => 0x53d100ed20fcb15b6acbbe394a4c58cf
  | 6 => 0xd0efaafb434d338545f9027f503c9fa8
  | 7 => 0x51a3408f929d38f5bcb6da2110fff3d2
  | 8 => 0xcd0c13ec5f974417c4a77e3d645d1973
  | 9 => 0x60814fdc222a908846eeb814de5e0bdb
  | 10 => 0xe0323a0a4906245cc2d3ac629195e479
  | 11 => 0xe7c8376d8dd54ea96c56f4ea657aae08
  | 12 => 0xba78252e1ca6b4c6e8dd741f4bbd8b8a
  | 13 => 0x703eb5664803f60e613557b986c11d9e
  | 14 => 0xe1f8981169d98e949b1e87e9ce5528df
  | _ => 0x8ca1890dbfe6426841992d0fb054bb16

/-- R44: row `hi` of the table of `INVSBOX`, its sixteen bytes written in column order, column 0 first. -/
def invSboxRow (hi : Nat) : Nat :=
  match hi with
  | 0 => 0x52096ad53036a538bf40a39e81f3d7fb
  | 1 => 0x7ce339829b2fff87348e4344c4dee9cb
  | 2 => 0x547b9432a6c2233dee4c950b42fac34e
  | 3 => 0x082ea16628d924b2765ba2496d8bd125
  | 4 => 0x72f8f66486689816d4a45ccc5d65b692
  | 5 => 0x6c704850fdedb9da5e154657a78d9d84
  | 6 => 0x90d8ab008cbcd30af7e45805b8b34506
  | 7 => 0xd02c1e8fca3f0f02c1afbd0301138a6b
  | 8 => 0x3a9111414f67dcea97f2cfcef0b4e673
  | 9 => 0x96ac7422e7ad3585e2f937e81c75df6e
  | 10 => 0x47f11a711d29c5896fb7620eaa18be1b
  | 11 => 0xfc563e4bc6d279209adbc0fe78cd5af4
  | 12 => 0x1fdda8338807c731b11210592780ec5f
  | 13 => 0x60517fa919b54a0d2de57a9f93c99cef
  | 14 => 0xa0e03b4dae2af5b0c8ebbb3c83539961
  | _ => 0x172b047eba77d626e169146355210c7d

/-- R43: the byte of a row in column `lo`, column 0 being the most significant byte of the row. -/
def rowByte (row lo : Nat) : Byte :=
  BitVec.ofNat 8 (row >>> (8 * (15 - lo)))

/-- R43: `SBOX[b]`, the entry in row `b[7:4]`, column `b[3:0]`. -/
def sbox (b : Byte) : Byte :=
  rowByte (sboxRow (b.toNat / 16)) (b.toNat % 16)

/-- R44: `INVSBOX[b]`, the entry in row `b[7:4]`, column `b[3:0]`. -/
def invSbox (b : Byte) : Byte :=
  rowByte (invSboxRow (b.toNat / 16)) (b.toNat % 16)

/-- R45: the ten bytes of `RCON`; `j : Fin 10` stands for the index `j + 1`, since index 0 does not exist. -/
def rcon (j : Fin 10) : Byte :=
  match j with
  | 0 => 0x01
  | 1 => 0x02
  | 2 => 0x04
  | 3 => 0x08
  | 4 => 0x10
  | 5 => 0x20
  | 6 => 0x40
  | 7 => 0x80
  | 8 => 0x1b
  | 9 => 0x36

end Sys2Proof.Machine
end

