-- ==== Sys2Proof/Machine/Field.lean ====
section
/-! DEFINITION. Arithmetic in GF(2^8) (`41_block_cipher.md` R121 to R124) and the construction that `20_memory.md` R46
gives as a check on the S-box. -/

namespace Sys2Proof.Machine

/-- R122: multiplication by `x`; the left shift drops bit 7, and a dropped 1 is reduced by `0x1b`. -/
def xtime (a : Byte) : Byte :=
  if a.msb then (a <<< 1) ^^^ 0x1b else a <<< 1

/-- R123: the loop of `gmul` over the bits of `b`, from bit 0 up; `n` bits are left. -/
def gmulLoop : Nat → Byte → Byte → Byte → Byte
  | 0, _, _, r => r
  | n + 1, a, b, r => gmulLoop n (xtime a) (b >>> 1) (if b.getLsbD 0 then r ^^^ a else r)

/-- R123: multiplication of two field elements. -/
def gmul (a b : Byte) : Byte :=
  gmulLoop 8 a b 0x00

/-- R123: `ginv`, the one byte whose product with `a` is 1, found by search; 0 for `a = 0`. -/
def ginv (a : Byte) : Byte :=
  (((List.range 256).map (BitVec.ofNat 8)).find? (fun v => gmul a v == 0x01)).getD 0x00

/-- R46: the S-box of `a` as built from the inverse of `a`: the affine map and the constant `0x63`. -/
def sboxConstruction (a : Byte) : Byte :=
  let v := ginv a
  v ^^^ v.rotateLeft 1 ^^^ v.rotateLeft 2 ^^^ v.rotateLeft 3 ^^^ v.rotateLeft 4 ^^^ 0x63

/-- R124: the product with `0x02`. -/
def mul02 (a : Byte) : Byte := xtime a

/-- R124: the product with `0x03`. -/
def mul03 (a : Byte) : Byte := xtime a ^^^ a

/-- R124: the product with `0x09`. -/
def mul09 (a : Byte) : Byte := xtime (xtime (xtime a)) ^^^ a

/-- R124: the product with `0x0b`. -/
def mul0b (a : Byte) : Byte := xtime (xtime (xtime a)) ^^^ xtime a ^^^ a

/-- R124: the product with `0x0d`. -/
def mul0d (a : Byte) : Byte := xtime (xtime (xtime a)) ^^^ xtime (xtime a) ^^^ a

/-- R124: the product with `0x0e`. -/
def mul0e (a : Byte) : Byte := xtime (xtime (xtime a)) ^^^ xtime (xtime a) ^^^ xtime a

end Sys2Proof.Machine
end

