-- ==== Sys2Proof/Config.lean ====
section
/-! DEFINITION. The parameters of the spec (`00_scope.md` R7, R8) and the free values: what the working registers
hold where the spec leaves their contents unspecified (`10_state.md` R24, R33). -/

namespace Sys2Proof

/-- R71: the header is six bytes. -/
abbrev Config.headerLen : Nat := 6

/-- R7: `BLK`, `KEYLEN` and `IVLEN` are all 16 bytes. -/
abbrev Config.blockLen : Nat := 16

/-- R74: the cap on `MAXLEN`, `2^32 - 17`. -/
def Config.maxLenCap : Nat := 4294967279

/-- R8, R74: `MAXLEN` is any natural number not above the cap. -/
abbrev MaxLen := Fin (Config.maxLenCap + 1)

/-- DESIGN CHOICE (log entry 2): the value of the open parameter `MAXLEN` in `State.reset`, the largest the spec
allows. Statements over all states hold for every `MAXLEN`, because the parameter stands in `State`. -/
def Config.resetMaxLen : MaxLen := Fin.last Config.maxLenCap

/-- R24, R33. DESIGN CHOICE (log entry 3): the unspecified contents of `ST`, one free value for each time it becomes
unspecified. -/
opaque Config.freeST : Nat → Block

/-- R24, R33. DESIGN CHOICE (log entry 3): the unspecified contents of `CH`. -/
opaque Config.freeCH : Nat → Block

/-- R24, R33. DESIGN CHOICE (log entry 3): the unspecified contents of `T`. -/
opaque Config.freeT : Nat → Word

/-- R24, R33. DESIGN CHOICE (log entry 3): the unspecified contents of `BI`. -/
opaque Config.freeBI : Nat → BitVec 28

end Sys2Proof
end

