-- ==== Sys2Proof/Machine/Operands.lean ====
section
/-! DEFINITION. The operand forms of the units: a block as sixteen bytes and back (`20_memory.md` R47), a buffer as a
sequence of blocks (`00_scope.md` R10), a round key as four words of the store (`10_state.md` R20), and a buffer with
one bit flipped (`42_cbc_chain.md` R156). -/

namespace Sys2Proof.Machine

/-- R11: the four bytes of a word, byte 0 first. -/
def wordBytes (w : Word) : List Byte :=
  [w.b0, w.b1, w.b2, w.b3]

/-- R47: the sixteen bytes of a block in index order. -/
def blockBytes (s : Block) : List Byte :=
  wordBytes s.c0 ++ wordBytes s.c1 ++ wordBytes s.c2 ++ wordBytes s.c3

/-- R11: byte `j` of a word. -/
def wordByte (w : Word) (j : Fin 4) : Byte :=
  match j with
  | 0 => w.b0
  | 1 => w.b1
  | 2 => w.b2
  | 3 => w.b3

/-- R47: column `c` of the cipher state. -/
def blockColumn (s : Block) (c : Fin 4) : Word :=
  match c with
  | 0 => s.c0
  | 1 => s.c1
  | 2 => s.c2
  | 3 => s.c3

/-- R47: byte `i` of a block as a flat vector: `s[r + 4c]` is row `r` of column `c`. -/
def blockByte (s : Block) (i : Fin 16) : Byte :=
  wordByte (blockColumn s ⟨i.val / 4, by omega⟩) ⟨i.val % 4, by omega⟩

/-- R10, R47: the block of exactly sixteen bytes; none for any other length. The length tests of the commands on a key
and on an IV are this one (R201, R202). -/
def blockOfBytes? (d : List Byte) : Option Block :=
  match d with
  | [x0, x1, x2, x3, x4, x5, x6, x7, x8, x9, x10, x11, x12, x13, x14, x15] =>
    some ⟨⟨x0, x1, x2, x3⟩, ⟨x4, x5, x6, x7⟩, ⟨x8, x9, x10, x11⟩, ⟨x12, x13, x14, x15⟩⟩
  | _ => none

/-- R10: `block(d, i)`, the bytes `16i` to `16i + 15` of a buffer; none where the buffer has no such sixteen bytes. -/
def blockAt (d : List Byte) (i : Nat) : Option Block :=
  blockOfBytes? ((d.drop (Config.blockLen * i)).take Config.blockLen)

/-- R10: the blocks `block(d, 0), block(d, 1), …` of a buffer whose length is a multiple of 16. The commands call it on no
other buffer (`42_cbc_chain.md` R153; DESIGN CHOICE, log entry 7). -/
def blocksOf (d : List Byte) : List Block :=
  match d with
  | x0 :: x1 :: x2 :: x3 :: x4 :: x5 :: x6 :: x7 :: x8 :: x9 :: x10 :: x11 :: x12 :: x13 :: x14 :: x15 :: rest =>
    ⟨⟨x0, x1, x2, x3⟩, ⟨x4, x5, x6, x7⟩, ⟨x8, x9, x10, x11⟩, ⟨x12, x13, x14, x15⟩⟩ :: blocksOf rest
  | _ => []

/-- R10: the buffer made of a sequence of blocks. -/
def bytesOf (bs : List Block) : List Byte :=
  bs.flatMap blockBytes

/-- R20: `RoundKey(r)`, the words `RK[4r]` to `RK[4r+3]` in order. -/
def roundKey (rk : RoundKeys) (r : Fin 11) : Block :=
  ⟨rk[4 * r.val], rk[4 * r.val + 1], rk[4 * r.val + 2], rk[4 * r.val + 3]⟩

/-- R156: a buffer with bit `bit` of byte `k` flipped. -/
def flipBit (d : List Byte) (k : Nat) (bit : Fin 8) : List Byte :=
  d.modify k (fun b => b ^^^ (1#8 <<< bit.val))

end Sys2Proof.Machine
end

