-- ==== Sys2Proof/Machine/BlockCipher.lean ====
section
/-! DEFINITION. Unit BlockCipher (`41_block_cipher.md`): the step functions and their inverses, EncryptBlock and
DecryptBlock. -/

namespace Sys2Proof.Machine

/-- R125. -/
def addRoundKey (s k : Block) : Block :=
  s.xor k

/-- R126, R127: one byte function applied to each of the four bytes of a word. -/
def mapWord (f : Byte → Byte) (w : Word) : Word :=
  ⟨f w.b0, f w.b1, f w.b2, f w.b3⟩

/-- R130, R131: one column function applied to each of the four columns of the state. -/
def mapColumns (f : Word → Word) (s : Block) : Block :=
  ⟨f s.c0, f s.c1, f s.c2, f s.c3⟩

/-- R126: each byte through `SBOX`. -/
def subBytes (s : Block) : Block :=
  mapColumns (mapWord sbox) s

/-- R127: each byte through `INVSBOX`. -/
def invSubBytes (s : Block) : Block :=
  mapColumns (mapWord invSbox) s

/-- R128: row `r` is rotated left by `r` columns. -/
def shiftRows (s : Block) : Block :=
  ⟨⟨s.c0.b0, s.c1.b1, s.c2.b2, s.c3.b3⟩, ⟨s.c1.b0, s.c2.b1, s.c3.b2, s.c0.b3⟩,
    ⟨s.c2.b0, s.c3.b1, s.c0.b2, s.c1.b3⟩, ⟨s.c3.b0, s.c0.b1, s.c1.b2, s.c2.b3⟩⟩

/-- R129: row `r` is rotated right by `r` columns. -/
def invShiftRows (s : Block) : Block :=
  ⟨⟨s.c0.b0, s.c3.b1, s.c2.b2, s.c1.b3⟩, ⟨s.c1.b0, s.c0.b1, s.c3.b2, s.c2.b3⟩,
    ⟨s.c2.b0, s.c1.b1, s.c0.b2, s.c3.b3⟩, ⟨s.c3.b0, s.c2.b1, s.c1.b2, s.c0.b3⟩⟩

/-- R130: one column times the fixed polynomial with coefficients `02, 01, 01, 03`. -/
def mixColumn (a : Word) : Word :=
  ⟨mul02 a.b0 ^^^ mul03 a.b1 ^^^ a.b2 ^^^ a.b3,
    a.b0 ^^^ mul02 a.b1 ^^^ mul03 a.b2 ^^^ a.b3,
    a.b0 ^^^ a.b1 ^^^ mul02 a.b2 ^^^ mul03 a.b3,
    mul03 a.b0 ^^^ a.b1 ^^^ a.b2 ^^^ mul02 a.b3⟩

/-- R131: one column times the inverse polynomial, coefficients `0e, 09, 0d, 0b`. -/
def invMixColumn (a : Word) : Word :=
  ⟨mul0e a.b0 ^^^ mul0b a.b1 ^^^ mul0d a.b2 ^^^ mul09 a.b3,
    mul09 a.b0 ^^^ mul0e a.b1 ^^^ mul0b a.b2 ^^^ mul0d a.b3,
    mul0d a.b0 ^^^ mul09 a.b1 ^^^ mul0e a.b2 ^^^ mul0b a.b3,
    mul0b a.b0 ^^^ mul0d a.b1 ^^^ mul09 a.b2 ^^^ mul0e a.b3⟩

/-- R130. -/
def mixColumns (s : Block) : Block :=
  mapColumns mixColumn s

/-- R131. -/
def invMixColumns (s : Block) : Block :=
  mapColumns invMixColumn s

/-- R135, R139: the rounds that hold MixColumns, in the order EncryptBlock runs them. -/
def middleRounds : List (Fin 11) :=
  [1, 2, 3, 4, 5, 6, 7, 8, 9]

/-- R135: one of the rounds 1 to 9 of EncryptBlock, under its round key. -/
def encryptRound (rk : RoundKeys) (s : Block) (r : Fin 11) : Block :=
  addRoundKey (mixColumns (shiftRows (subBytes s))) (roundKey rk r)

/-- R136: one of the rounds 9 to 1 of DecryptBlock, under its round key. -/
def decryptRound (rk : RoundKeys) (s : Block) (r : Fin 11) : Block :=
  invMixColumns (addRoundKey (invSubBytes (invShiftRows s)) (roundKey rk r))

/-- R135: EncryptBlock. -/
def encryptBlock (b : Block) (rk : RoundKeys) : Block :=
  let s := middleRounds.foldl (encryptRound rk) (addRoundKey b (roundKey rk 0))
  addRoundKey (shiftRows (subBytes s)) (roundKey rk 10)

/-- R136: DecryptBlock. -/
def decryptBlock (c : Block) (rk : RoundKeys) : Block :=
  let s := middleRounds.reverse.foldl (decryptRound rk) (addRoundKey c (roundKey rk 10))
  addRoundKey (invSubBytes (invShiftRows s)) (roundKey rk 0)

end Sys2Proof.Machine
end

