-- ==== Sys2Proof/Machine/CbcChain.lean ====
section
/-! DEFINITION. Unit CbcChain (`42_cbc_chain.md`): ChainEncrypt and ChainDecrypt. The list recursion is the loop over
`BI` (R152, R155); its argument `ch` is the working register `CH`. -/

namespace Sys2Proof.Machine

/-- R151: the loop of ChainEncrypt: the block that follows is chained with the ciphertext block just made. -/
def chainEncryptBlocks (rk : RoundKeys) : (ch : Block) → List Block → List Block
  | _, [] => []
  | ch, b :: rest =>
    let st := encryptBlock (b.xor ch) rk
    st :: chainEncryptBlocks rk st rest

/-- R154: the loop of ChainDecrypt: the block that follows is chained with the input block, never the decrypted one. -/
def chainDecryptBlocks (rk : RoundKeys) : (ch : Block) → List Block → List Block
  | _, [] => []
  | ch, c :: rest => (decryptBlock c rk).xor ch :: chainDecryptBlocks rk c rest

/-- R150, R151: ChainEncrypt on a buffer whose length is a multiple of 16. -/
def chainEncrypt (d : List Byte) (iv : Block) (rk : RoundKeys) : List Byte :=
  bytesOf (chainEncryptBlocks rk iv (blocksOf d))

/-- R150, R154: ChainDecrypt on a buffer whose length is a multiple of 16. -/
def chainDecrypt (c : List Byte) (iv : Block) (rk : RoundKeys) : List Byte :=
  bytesOf (chainDecryptBlocks rk iv (blocksOf c))

end Sys2Proof.Machine
end

