-- ==== Sys2Proof/Machine/KeySchedule.lean ====
section
/-! DEFINITION. Unit KeySchedule (`40_key_schedule.md`): RotWord, SubWord, the round-constant word and KeyExpansion. -/

namespace Sys2Proof.Machine

/-- R101: the bytes move one place toward index 0 and byte 0 wraps to index 3. -/
def rotWord (w : Word) : Word :=
  ⟨w.b1, w.b2, w.b3, w.b0⟩

/-- R102: each byte through the forward S-box. -/
def subWord (w : Word) : Word :=
  ⟨sbox w.b0, sbox w.b1, sbox w.b2, sbox w.b3⟩

/-- R103: `RconWord(j + 1)`; `j : Fin 10` stands for the index `j + 1`, as in `rcon`. -/
def rconWord (j : Fin 10) : Word :=
  ⟨rcon j, 0x00, 0x00, 0x00⟩

/-- R104: the temporary `T` for word `i` (`4 ≤ i ≤ 43`), made of the word before it: rotated, substituted and given
`RconWord(i div 4)` when `i mod 4 = 0`. -/
def scheduleTemp (i : Fin 40) (previous : Word) : Word :=
  if i.val % 4 = 0 then (subWord (rotWord previous)).xor (rconWord ⟨i.val / 4, by omega⟩) else previous

/-- R104: the first `4 + n` words of the schedule of key `k`. The four columns of the key are `w[0..3]` (R48); word
`4 + n` is word `n` exclusive-or the temporary made of word `3 + n`. -/
def scheduleWords (k : Block) : (n : Nat) → n ≤ 40 → Vector Word (4 + n)
  | 0, _ => #v[k.c0, k.c1, k.c2, k.c3]
  | n + 1, h =>
    let w := scheduleWords k n (by omega)
    w.push (w[n].xor (scheduleTemp ⟨n, by omega⟩ w[3 + n]))

/-- R100, R104: KeyExpansion, the 44 words of the schedule of a 16-byte key. -/
def keyExpansion (k : Block) : RoundKeys :=
  scheduleWords k 40 (Nat.le_refl 40)

end Sys2Proof.Machine
end

