-- ==== Sys2Proof/Machine/State.lean ====
section
/-! DEFINITION. The state of one CORE instance (`10_state.md`), what its three logical ports carry (`30_encoding.md`
R70), its statuses (R77), and the state after reset (R33). -/

namespace Sys2Proof.Machine

/-- The machine stops with a fault. There is none: "CORE never halts, never locks up and never enters an error state"
(`60_exceptions.md` R200), so the type has no constructor, nothing raises one, and every step ends in a next state. -/
inductive Fault where
deriving DecidableEq, Repr

/-- No meaning for an instruction. -/
inductive Refusal where
  /-- Raised by `exec` alone, for an instruction whose arm has no meaning yet. Safe: the machine stops where the
  hardware goes on. No arm of this model raises it. -/
  | notModelled (mnemonic : String)
deriving DecidableEq, Repr

/-- The six failures of `60_exceptions.md` section 2. A failure is a status in a response, not a `Fault` (R200). -/
inductive Failure where
  /-- R201, raised by BIND. -/
  | invalidKeyLength
  /-- R202, raised by CBCENC and CBCDEC. -/
  | invalidIvLength
  /-- R203, raised by CBCDEC. -/
  | invalidCiphertextLength
  /-- R204, raised by CBCDEC. -/
  | paddingError
  /-- R205, raised by CBCENC and CBCDEC. -/
  | noKey
  /-- R206, raised by the decoder. -/
  | badCommand
deriving DecidableEq, Repr

/-- R77: the seven statuses of a response. -/
inductive Status where
  | ok
  | failed (f : Failure)
deriving DecidableEq, Repr

/-- What the host does at the ports `CMD` and `RST`, between two steps of the machine (R70, `70_reset_and_hazards.md`
R230, R231). DESIGN CHOICE (log entry 1). -/
inductive PortEvent where
  /-- The host presents a command packet on `CMD`. -/
  | command (p : Packet)
  /-- The host asserts `RST` while no command is in progress. -/
  | reset
  /-- The host presents a packet on `CMD` and asserts `RST` while its command is in progress. DEDUCED (log entry 14). -/
  | resetDuring (p : Packet)
deriving DecidableEq, Repr

/-- The state of one CORE instance, and what its ports hold. -/
structure State where
  /-- R20, R22, R35: the round-key store `RK` and the key-valid flag `KV`, held as R35 says: absent is `KV = 0`, and
  then `RK` "holds no value"; present is `KV = 1` with the 44 words. DEDUCED (log entry 6). -/
  rk : Option RoundKeys
  /-- R24: `ST`, the cipher state of the block transform in progress. -/
  st : Block
  /-- R24: `CH`, the chaining value. -/
  ch : Block
  /-- R24: `T`, the temporary of the key expansion. -/
  t : Word
  /-- R24: `BI`, the 28-bit block index. -/
  bi : BitVec 28
  /-- R29: `IBUF`, the operand and data part of the packet in progress. -/
  ibuf : List Byte
  /-- R29: `OBUF`, the data part of the response being built. -/
  obuf : List Byte
  /-- R70: the events at `CMD` and `RST` that the machine has not taken yet, the oldest first. DESIGN CHOICE (log
  entry 1). -/
  cmd : List PortEvent
  /-- R70, R243: the response packets delivered on `RSP`, the oldest first. DESIGN CHOICE (log entry 1). -/
  rsp : List Packet
  /-- The model's own field, DESIGN CHOICE (log entry 2): the open parameter `MAXLEN` of R8, which no step changes. -/
  maxLen : MaxLen
  /-- The model's own field, DESIGN CHOICE (log entry 3): how many times the working registers have become unspecified. -/
  freeIx : Nat
deriving DecidableEq, Repr

/-- R33, R230: the state after reset: no key bound, the buffers empty, the working registers unspecified; nothing has
been presented on `CMD` and nothing delivered on `RSP`. -/
def State.reset : State where
  rk := none
  st := Config.freeST 0
  ch := Config.freeCH 0
  t := Config.freeT 0
  bi := Config.freeBI 0
  ibuf := []
  obuf := []
  cmd := []
  rsp := []
  maxLen := Config.resetMaxLen
  freeIx := 1

end Sys2Proof.Machine
end

