-- ==== Sys2Proof/Machine/Flags.lean ====
section
/-! DEFINITION. The one flag of CORE, the key-valid flag `KV` (`10_state.md` R22, R27): how it is read, and the only
two operations that write it. -/

namespace Sys2Proof.Machine

/-- R22, R35: `KV = 1` when the store holds a schedule. -/
def State.kv (s : State) : Bool :=
  s.rk.isSome

/-- R21, R181: BIND writes all 44 words and sets `KV`, in one step. -/
def State.bindSchedule (w : RoundKeys) (s : State) : State :=
  { s with rk := some w }

/-- R22, R230: reset clears `KV`; the store then holds no value. -/
def State.dropSchedule (s : State) : State :=
  { s with rk := none }

end Sys2Proof.Machine
end

