-- ==== Sys2Proof/Syntax.lean ====
section
/-! DEFINITION. The commands of CORE, one constructor for each row of `spec/opcode_table.json`
(`30_encoding.md` R72, R75, R79), and the names of what the decoder tells apart. -/

namespace Sys2Proof

/-- R79: "The decoded command is plain data: an opcode, a byte sequence `A` of any length 0..255, and a byte
sequence `DATA`." A BIND carries no `DATA` (R81). -/
inductive Instr where
  /-- R181: BIND, `a` is the key. -/
  | bind (a : List Byte)
  /-- R184: CBCENC, `a` is the IV, `data` the plaintext. -/
  | cbcenc (a data : List Byte)
  /-- R187: CBCDEC, `a` is the IV, `data` the ciphertext. -/
  | cbcdec (a data : List Byte)
deriving DecidableEq, Repr

/-- R75: the three opcodes that select a command. -/
inductive Opcode where
  | bind
  | cbcenc
  | cbcdec
deriving DecidableEq, Repr

/-- R80, R81: why the decoder rejects a packet. All five are answered alike (R206); the names are the model's. -/
inductive Malformed where
  /-- R81: shorter than the six-byte header. -/
  | shortHeader
  /-- R80: `OPC` is none of `0x01`, `0x02`, `0x03`. -/
  | reservedOpcode
  /-- R81: the delivered length is not `6 + ALEN + DLEN`. -/
  | lengthMismatch
  /-- R81: a BIND with `DLEN != 0`. -/
  | bindWithData
  /-- R74: `DLEN` above the limit of its opcode. -/
  | dataTooLong
deriving DecidableEq, Repr

/-- R72: operand `A` of a command. -/
def Instr.operandA : Instr → List Byte
  | .bind a => a
  | .cbcenc a _ => a
  | .cbcdec a _ => a

/-- R72: the DATA of a command; empty for BIND. -/
def Instr.operandData : Instr → List Byte
  | .bind _ => []
  | .cbcenc _ data => data
  | .cbcdec _ data => data

/-- R75: the opcode of a command. -/
def Instr.opcode : Instr → Opcode
  | .bind _ => .bind
  | .cbcenc _ _ => .cbcenc
  | .cbcdec _ _ => .cbcdec

end Sys2Proof
end

