-- ==== Sys2Proof/WellFormed.lean ====
section
/-! DEFINITION. Which decoded commands a packet can carry: `ALEN` is one byte (`30_encoding.md` R71) and `DLEN` is
within the limit of R74. What the commands check themselves (`ALEN = 16`, the divisibility of `DLEN`) is not asked
here (R79). -/

namespace Sys2Proof

/-- R71: operand `A` has a length that the one byte `ALEN` can carry. -/
def Instr.fitsALen (i : Instr) : Bool :=
  decide (i.operandA.length ≤ 255)

/-- R74, R81: DATA is within its opcode's limit: 0 for BIND, `MAXLEN` for CBCENC, `MAXLEN + 16` for CBCDEC. -/
def Instr.fitsDLen (maxLen : Nat) (i : Instr) : Bool :=
  match i with
  | .bind _ => true
  | .cbcenc _ data => decide (data.length ≤ maxLen)
  | .cbcdec _ data => decide (data.length ≤ maxLen + 16)

/-- A command that some packet decodes to, when the largest plaintext is `maxLen` bytes. -/
def Instr.wellFormed (maxLen : Nat) (i : Instr) : Bool :=
  i.fitsALen && i.fitsDLen maxLen

end Sys2Proof
end

