-- ==== Sys2Proof/Decode.lean ====
section
/-! DEFINITION. The packet decoder of `30_encoding.md` R79, total on every byte sequence and rejecting by name, and
after it the encoder written from the same packet layout (R71, R73, R75). -/

namespace Sys2Proof

/-- R73: the value of four bytes, the most significant first. -/
def beNat (l3 l2 l1 l0 : Byte) : Nat :=
  l3.toNat * 2 ^ 24 + l2.toNat * 2 ^ 16 + l1.toNat * 2 ^ 8 + l0.toNat

/-- R73: the four bytes of a 32-bit length, the most significant first. -/
def beBytes (n : Nat) : List Byte :=
  [BitVec.ofNat 8 (n / 2 ^ 24), BitVec.ofNat 8 (n / 2 ^ 16), BitVec.ofNat 8 (n / 2 ^ 8), BitVec.ofNat 8 n]

/-- R75: the opcode values. -/
def Opcode.code : Opcode → Byte
  | .bind => 0x01
  | .cbcenc => 0x02
  | .cbcdec => 0x03

/-- R75, R80: the command that a value of `OPC` selects; every other value is reserved. -/
def Opcode.ofCode? (opc : Byte) : Option Opcode :=
  if opc = 0x01 then some .bind
  else if opc = 0x02 then some .cbcenc
  else if opc = 0x03 then some .cbcdec
  else none

/-- R74, R81: the largest `DLEN` that each opcode accepts. -/
def Opcode.dataLimit (maxLen : Nat) : Opcode → Nat
  | .bind => 0
  | .cbcenc => maxLen
  | .cbcdec => maxLen + 16

/-- The name of what is wrong when `DLEN` is above `Opcode.dataLimit`. -/
def Opcode.overLimit : Opcode → Malformed
  | .bind => .bindWithData
  | .cbcenc => .dataTooLong
  | .cbcdec => .dataTooLong

/-- R72: the command an opcode makes of its operands. -/
def Opcode.command (a data : List Byte) : Opcode → Instr
  | .bind => .bind a
  | .cbcenc => .cbcenc a data
  | .cbcdec => .cbcdec a data

/-- R79: decode a packet given as its header and, after it, its operand and data bytes (`IBUF`). The checks stand in
the order of the rule. -/
def decodePacket (maxLen : Nat) (header ibuf : List Byte) : Except Malformed Instr :=
  match header with
  | [opc, alen, l3, l2, l1, l0] =>
    match Opcode.ofCode? opc with
    | none => .error .reservedOpcode
    | some op =>
      if ibuf.length ≠ alen.toNat + beNat l3 l2 l1 l0 then .error .lengthMismatch
      else if op.dataLimit maxLen < beNat l3 l2 l1 l0 then .error op.overLimit
      else .ok (op.command (ibuf.take alen.toNat) (ibuf.drop alen.toNat))
  | _ => .error .shortHeader

/-- R79: decode a packet, any byte sequence. -/
def decode (maxLen : Nat) (p : Packet) : Except Malformed Instr :=
  decodePacket maxLen (p.take Config.headerLen) (p.drop Config.headerLen)

/-- R71: the packet of a command: `OPC`, `ALEN`, `DLEN`, then `A`, then `DATA`. -/
def encode (i : Instr) : Packet :=
  i.opcode.code :: BitVec.ofNat 8 i.operandA.length ::
    (beBytes i.operandData.length ++ (i.operandA ++ i.operandData))

/-- The `nbits / 8` bytes of a number read with its first byte most significant, as `spec/opcode_table.json` numbers the
header (`OPC` is bits 47:40, `DLEN` bits 31:0). DEDUCED (log entry 10). -/
def tableBytes : Nat → Nat → List Byte
  | 0, _ => []
  | n + 1, w => tableBytes n (w / 256) ++ [BitVec.ofNat 8 w]

/-- The packet that a table word stands for: the header bytes the word gives (zeros where it gives fewer than six),
then `ALEN + DLEN` operand bytes of zero. A header whose `DLEN` no command may have gets no operand bytes: no packet
with it is a command. DEDUCED (log entry 10). -/
def tablePacket (nbits w : Nat) : Packet :=
  let given := tableBytes (nbits / 8) w
  let p := given ++ List.replicate (Config.headerLen - given.length) 0
  match p with
  | opc :: alen :: l3 :: l2 :: l1 :: l0 :: _ =>
    match Opcode.ofCode? opc with
    | none => p
    | some op =>
      if op.dataLimit Config.resetMaxLen < beNat l3 l2 l1 l0 then p
      else p ++ List.replicate (Config.headerLen + alen.toNat + beNat l3 l2 l1 l0 - p.length) 0
  | _ => p

/-- The instruction that the decoder reads from an instruction whose bits are `w`, numbered as the opcode table numbers
them. -/
def decodeTableWord (nbits w : Nat) : Option Instr :=
  (decode Config.resetMaxLen (tablePacket nbits w)).toOption

end Sys2Proof
end

