-- ==== Sys2Proof/Machine/Response.lean ====
section
/-! DEFINITION. The response packet (`30_encoding.md` R76, R77) and how a host reads one back. -/

namespace Sys2Proof.Machine

/-- R77: the code of each failure. -/
def Failure.code : Failure → Byte
  | .invalidKeyLength => 0x01
  | .invalidIvLength => 0x02
  | .invalidCiphertextLength => 0x03
  | .paddingError => 0x04
  | .noKey => 0x10
  | .badCommand => 0x11

/-- R77: the status codes. -/
def Status.code : Status → Byte
  | .ok => 0x00
  | .failed f => f.code

/-- R77: the status a code stands for; every other value is never emitted. -/
def Status.ofCode? (c : Byte) : Option Status :=
  if c = 0x00 then some .ok
  else if c = 0x01 then some (.failed .invalidKeyLength)
  else if c = 0x02 then some (.failed .invalidIvLength)
  else if c = 0x03 then some (.failed .invalidCiphertextLength)
  else if c = 0x04 then some (.failed .paddingError)
  else if c = 0x10 then some (.failed .noKey)
  else if c = 0x11 then some (.failed .badCommand)
  else none

/-- R76: the response packet: `STATUS`, `RLEN`, then `RDATA`. DESIGN CHOICE (log entry 15): data longer than `RLEN` can say,
which no command that passed the decoder has, get the length modulo `2^32`. -/
def responsePacket (status : Status) (data : List Byte) : Packet :=
  status.code :: (beBytes data.length ++ data)

/-- R76: the status and data of a response packet, as a host reads them; none for a byte sequence that is no response. -/
def readResponse (q : Packet) : Option (Status × List Byte) :=
  match q with
  | status :: l3 :: l2 :: l1 :: l0 :: data =>
    if data.length = beNat l3 l2 l1 l0 then (Status.ofCode? status).map (fun st => (st, data)) else none
  | _ => none

end Sys2Proof.Machine
end

