-- ==== Sys2Proof/Machine/Ops.lean ====
section
/-! DEFINITION. The operations every command shares: taking a packet from `CMD`, filling `OBUF`, responding on `RSP`,
failing, and reset. Failing is CORE's whole exception mechanism: "A failure saves no state, changes no mode, masks
nothing, switches no stack and transfers control nowhere", and "There is no return instruction and nothing to restore"
(`60_exceptions.md` R210), so no operation returns from one. -/

namespace Sys2Proof.Machine

/-- R24: a command or a reset leaves the working registers unspecified. DESIGN CHOICE (log entry 3): a free value in each, the
same one in every state with the same `freeIx`. -/
def State.forgetWork (s : State) : State :=
  { s with
    st := Config.freeST s.freeIx
    ch := Config.freeCH s.freeIx
    t := Config.freeT s.freeIx
    bi := Config.freeBI s.freeIx
    freeIx := s.freeIx + 1 }

/-- R29: both buffers are empty between commands; an `OBUF` that was not sent is discarded. -/
def State.clearBuffers (s : State) : State :=
  { s with ibuf := [], obuf := [] }

/-- R29, R70: take the event that stands first at the ports; the operand and data part of its packet is `IBUF`. -/
def State.takePacket (p : Packet) (s : State) : State :=
  { s with cmd := s.cmd.tail, ibuf := p.drop Config.headerLen }

/-- R79: decode the packet in progress from its header and from `IBUF`. -/
def State.decodeTaken (p : Packet) (s : State) : Except Malformed Instr :=
  decodePacket s.maxLen (p.take Config.headerLen) s.ibuf

/-- R29: fill the data part of the response being built. -/
def State.fillObuf (data : List Byte) (s : State) : State :=
  { s with obuf := data }

/-- R12, R70, R76: `respond(status, data)` ends the command: it delivers one response packet. -/
def State.respond (status : Status) (data : List Byte) (s : State) : State :=
  ({ s with rsp := s.rsp ++ [responsePacket status data] }).clearBuffers.forgetWork

/-- R184, R187: respond OK with the contents of `OBUF`. -/
def State.respondObuf (s : State) : State :=
  s.respond .ok s.obuf

/-- R12, R207: `raise E` is `respond(code(E), [])`, with no write to `RK` or `KV`. -/
def State.raise (f : Failure) (s : State) : State :=
  s.respond (.failed f) []

/-- R230, R231: `RST`, whether or not it cuts a command short: no response, no key bound, the buffers empty, the working
registers unspecified. The ports keep what else the host presents and what it has received. DESIGN CHOICE
(log entry 4). -/
def State.applyReset (s : State) : State :=
  ({ s with cmd := s.cmd.tail }).dropSchedule.clearBuffers.forgetWork

end Sys2Proof.Machine
end

