-- ==== Sys2Proof/Machine/Padding.lean ====
section
/-! DEFINITION. Unit Padding (`43_padding.md`): Pad and Unpad. -/

namespace Sys2Proof.Machine

/-- R166: the number of bytes that Pad appends to a buffer of `len` bytes, 1 to 16. -/
def padLength (len : Nat) : Nat :=
  Config.blockLen - len % Config.blockLen

/-- R166: Pad appends `padLength` bytes, each holding that number. -/
def pad (d : List Byte) : List Byte :=
  d ++ List.replicate (padLength d.length) (BitVec.ofNat 8 (padLength d.length))

/-- R168: Unpad. `none` is PaddingError: it carries no cause (R169). -/
def unpad (d : List Byte) : Option (List Byte) :=
  match d.getLast? with
  | none => none
  | some last =>
    let p := last.toNat
    if p = 0 ∨ Config.blockLen < p then none
    else if d.length < p then none
    else if (d.drop (d.length - p)).all (· == last) then some (d.take (d.length - p))
    else none

end Sys2Proof.Machine
end

