-- ==== Sys2Proof/Machine/Commands.lean ====
section
/-! DEFINITION. The three host commands (`44_commands.md`), each one atomic transition (R180): the checks in the order
of the rule, the first that fails ending the command, then the result. -/

namespace Sys2Proof.Machine

/-- R181, R182, R183: BIND. -/
def execBind (a : List Byte) (s : State) : Host.Outcome State Fault Refusal :=
  match blockOfBytes? a with
  | none => .next (s.raise .invalidKeyLength)
  | some k => .next ((s.bindSchedule (keyExpansion k)).respond .ok [])

/-- R184: CBCENC. -/
def execCbcenc (a data : List Byte) (s : State) : Host.Outcome State Fault Refusal :=
  match s.rk with
  | none => .next (s.raise .noKey)
  | some w =>
    match blockOfBytes? a with
    | none => .next (s.raise .invalidIvLength)
    | some iv => .next (s.fillObuf (chainEncrypt (pad data) iv w)).respondObuf

/-- R187: CBCDEC. -/
def execCbcdec (a data : List Byte) (s : State) : Host.Outcome State Fault Refusal :=
  match s.rk with
  | none => .next (s.raise .noKey)
  | some w =>
    match blockOfBytes? a with
    | none => .next (s.raise .invalidIvLength)
    | some iv =>
      if data.length = 0 ∨ data.length % Config.blockLen ≠ 0 then .next (s.raise .invalidCiphertextLength)
      else
        match unpad (chainDecrypt data iv w) with
        | none => .next (s.raise .paddingError)
        | some plain => .next (s.fillObuf plain).respondObuf

end Sys2Proof.Machine
end

