-- ==== Sys2Proof/Machine/Dispatch.lean ====
section
/-! DEFINITION. One arm for each command of `spec/opcode_table.json`. -/

namespace Sys2Proof.Machine

def exec (i : Instr) (s : State) : Host.Outcome State Fault Refusal :=
  match i with
  | .bind a => Sys2Proof.Machine.execBind a s
  | .cbcenc a data => Sys2Proof.Machine.execCbcenc a data s
  | .cbcdec a data => Sys2Proof.Machine.execCbcdec a data s

end Sys2Proof.Machine
end

