-- ==== Sys2Proof/Machine/Step.lean ====
section
/-! DEFINITION. One step: the machine takes the event that stands first at its ports (`30_encoding.md` R70), or waits
(`70_reset_and_hazards.md` R232). -/

namespace Sys2Proof.Machine

/-- One transaction, or one reset. With nothing presented CORE waits: "CORE executes nothing of its own accord. It waits
for a command packet." (R232; DEDUCED, log entry 8: a step that changes nothing). A packet is taken whole, decoded (R79), and run as one atomic transition (R180); a
malformed one is answered BadCommand (R206). `RST` gives the reset state, and a command it cuts short never happened
(R230, R231). -/
def step (s : State) : Host.Outcome State Fault Refusal :=
  match s.cmd with
  | [] => .next s
  | .reset :: _ => .next s.applyReset
  | .resetDuring _ :: _ => .next s.applyReset
  | .command p :: _ =>
    match (s.takePacket p).decodeTaken p with
    | .error _ => .next ((s.takePacket p).raise .badCommand)
    | .ok i => exec i (s.takePacket p)

/-- `s` with the instruction of a table word presented on `CMD` before everything else the host presents. CORE fetches
nothing (`10_state.md` R26): its program is the sequence of packets the host presents. DEDUCED (log
entry 5). -/
def State.withFetchWord (s : State) (nbits w : Nat) : State :=
  { s with cmd := .command (tablePacket nbits w) :: s.cmd }

end Sys2Proof.Machine
end

