-- ==== Sys2Proof/Machine/System.lean ====
section
/-! DEFINITION. Several instances (`10_state.md` R34): the product of independent copies of the one-instance machine. -/

namespace Sys2Proof.Machine

/-- R34: `NINST` instances, each with its own state and its own ports. -/
structure System where
  cores : List State
deriving DecidableEq, Repr

/-- R34: `ninst` instances after reset. DESIGN CHOICE (log entry 3): the spec leaves `ST`, `CH`, `T` and `BI` of each
instance unspecified and does not say whether those of two instances are equal; here they are, because the same `freeIx`
selects the same free value in every instance. -/
def System.reset (ninst : Nat) : System :=
  ⟨List.replicate ninst State.reset⟩

/-- R34: instance `k` makes one step. Which instance steps is not the machine's choice (R217), so it is an argument; an
index that names no instance does nothing. DESIGN CHOICE (log entry 11). -/
def System.stepInstance (sys : System) (k : Nat) : Host.Outcome System Fault Refusal :=
  match sys.cores[k]? with
  | none => .next sys
  | some s =>
    match step s with
    | .next s' => .next ⟨sys.cores.set k s'⟩
    | .fault r => .fault r
    | .refused r => .refused r

end Sys2Proof.Machine
end

