-- ==== Sys2Proof/Machine/Written.lean ====
section
/-! DEFINITION. The written form of commands and responses (`30_encoding.md` R84): a line of text to a command and its
packet, a response packet to text. DESIGN CHOICE (log entry 12) where the rule leaves the form open. -/

namespace Sys2Proof.Machine

/-- The character that opens and closes an ASCII string. -/
def quoteChar : Char := Char.ofNat 34

/-- What follows `pre` in a line that begins with it. -/
def afterPrefix : (pre line : List Char) → Option (List Char)
  | [], line => some line
  | c :: cs, d :: ds => if c = d then afterPrefix cs ds else none
  | _ :: _, [] => none

/-- A line without its leading spaces. -/
def skipSpaces : List Char → List Char
  | ' ' :: rest => skipSpaces rest
  | line => line

/-- The value of a hexadecimal digit. -/
def hexDigit? (c : Char) : Option Nat :=
  if '0' ≤ c ∧ c ≤ '9' then some (c.toNat - '0'.toNat)
  else if 'a' ≤ c ∧ c ≤ 'f' then some (c.toNat - 'a'.toNat + 10)
  else if 'A' ≤ c ∧ c ≤ 'F' then some (c.toNat - 'A'.toNat + 10)
  else none

/-- R84: the bytes of an ASCII string up to its closing quote, one byte for each character, and what follows it. DESIGN
CHOICE (log entry 12): there is no escape, and the string may be empty. -/
def readQuoted : List Char → Option (List Byte × List Char)
  | [] => none
  | c :: rest =>
    if c = quoteChar then some ([], rest)
    else if c.toNat < 128 then (readQuoted rest).map (fun r => (BitVec.ofNat 8 c.toNat :: r.1, r.2))
    else none

/-- R84: a run of hex pairs with optional spaces, and what follows it; the run ends where the operand `data=` begins. -/
def readHex : List Char → List Byte × List Char
  | c :: d :: rest =>
    if c = ' ' then readHex (d :: rest)
    else if (afterPrefix ['d', 'a', 't', 'a', '='] (c :: d :: rest)).isSome then ([], c :: d :: rest)
    else
      match hexDigit? c, hexDigit? d with
      | some hi, some lo => (BitVec.ofNat 8 (16 * hi + lo) :: (readHex rest).1, (readHex rest).2)
      | _, _ => ([], c :: d :: rest)
  | line => ([], line)

/-- R84: `<bytes>`: `-` for the empty sequence, an ASCII string in double quotes, or a run of hex pairs. -/
def readBytes (line : List Char) : Option (List Byte × List Char) :=
  match line with
  | [] => none
  | c :: rest =>
    if c = '-' then some ([], rest)
    else if c = quoteChar then readQuoted rest
    else
      match readHex line with
      | ([], _) => none
      | r => some r

/-- R84: one operand, `name=<bytes>`, and what follows it. DESIGN CHOICE (log entry 12): the rule writes a space between two
operands and does not say that one must stand there; none is needed here (`iv=-data=-` is read). -/
def readOperand (name line : List Char) : Option (List Byte × List Char) :=
  match afterPrefix (name ++ ['=']) (skipSpaces line) with
  | some rest => readBytes rest
  | none => none

/-- R84: nothing stands after the operands but a comment. DESIGN CHOICE (log entry 12): spaces may stand before the comment
or the end of the line, and none is needed. -/
def endsLine (line : List Char) : Bool :=
  match skipSpaces line with
  | [] => true
  | c :: _ => c == ';'

/-- R84: the operands of BIND. -/
def readBind (line : List Char) : Option Instr :=
  match readOperand ['k', 'e', 'y'] line with
  | some (key, rest) => if endsLine rest then some (.bind key) else none
  | none => none

/-- R84: the two operands of a CBC command. -/
def readCbc (make : List Byte → List Byte → Instr) (line : List Char) : Option Instr :=
  match readOperand ['i', 'v'] line with
  | none => none
  | some (iv, rest) =>
    match readOperand ['d', 'a', 't', 'a'] rest with
    | some (data, rest') => if endsLine rest' then some (make iv data) else none
    | none => none

/-- R84: one line is one command; there are no pseudo-commands. DESIGN CHOICE (log entry 12): spaces may stand before the
mnemonic, at least one stands after it, and a line with a comment alone is no command. -/
def readCommand (line : List Char) : Option Instr :=
  match afterPrefix ['B', 'I', 'N', 'D', ' '] (skipSpaces line) with
  | some rest => readBind rest
  | none =>
    match afterPrefix ['C', 'B', 'C', 'E', 'N', 'C', ' '] (skipSpaces line) with
    | some rest => readCbc .cbcenc rest
    | none =>
      match afterPrefix ['C', 'B', 'C', 'D', 'E', 'C', ' '] (skipSpaces line) with
      | some rest => readCbc .cbcdec rest
      | none => none

/-- R84: the assembler computes `ALEN` and `DLEN` from the operands. A line whose operands no packet can carry has no
packet. -/
def assemble (maxLen : Nat) (line : List Char) : Option Packet :=
  match readCommand line with
  | some i => if i.wellFormed maxLen then some (encode i) else none
  | none => none

/-- The digit of a value below 16, in lower case as the spec writes it. -/
def hexDigit (n : Nat) : Char :=
  if n < 10 then Char.ofNat ('0'.toNat + n) else Char.ofNat ('a'.toNat + (n - 10))

/-- R84: a byte as a pair of hex digits. -/
def hexPair (b : Byte) : List Char :=
  [hexDigit (b.toNat / 16), hexDigit (b.toNat % 16)]

/-- R84: a byte sequence as text: a run of hex pairs, or `-` when it is empty. -/
def writeBytes (d : List Byte) : List Char :=
  match d with
  | [] => ['-']
  | _ => d.flatMap hexPair

/-- R84: the three ways the rule lets `<bytes>` be written. -/
inductive BytesForm where
  /-- `-`, the empty sequence. -/
  | empty
  /-- A double-quoted ASCII string. -/
  | quoted (chars : List Char)
  /-- A run of hex pairs, each byte with the number of spaces that stand before its pair. -/
  | hexRun (pairs : List (Nat × Byte))
deriving DecidableEq, Repr

/-- R84: the forms that a line may hold: the characters of a string are ASCII and none is the quote that ends it, and a
run has a pair in it. -/
def BytesForm.allowed : BytesForm → Bool
  | .empty => true
  | .quoted chars => chars.all (fun c => decide (c.toNat < 128) && decide (c ≠ quoteChar))
  | .hexRun pairs => !pairs.isEmpty

/-- R84: the bytes that a form stands for. -/
def BytesForm.bytes : BytesForm → List Byte
  | .empty => []
  | .quoted chars => chars.map (fun c => BitVec.ofNat 8 c.toNat)
  | .hexRun pairs => pairs.map (·.2)

/-- The text of a run of hex pairs. -/
def hexRunText (pairs : List (Nat × Byte)) : List Char :=
  pairs.flatMap (fun r => List.replicate r.1 ' ' ++ hexPair r.2)

/-- R84: a form as text. -/
def BytesForm.text : BytesForm → List Char
  | .empty => ['-']
  | .quoted chars => quoteChar :: (chars ++ [quoteChar])
  | .hexRun pairs => hexRunText pairs

/-- R84: the operand `name=<bytes>` after at least one space. -/
def operandText (spaces : Nat) (name : List Char) (form : BytesForm) : List Char :=
  List.replicate (spaces + 1) ' ' ++ (name ++ '=' :: form.text)

/-- R84: "Comments start with `;`": a comment as text, and the empty text for none. -/
def commentText : Option (List Char) → List Char
  | none => []
  | some text => ';' :: text

/-- R84: what may stand after the operands: spaces, and a comment if there is one. -/
def lineEnd (spaces : Nat) (comment : Option (List Char)) : List Char :=
  List.replicate spaces ' ' ++ commentText comment

/-- R77, R84: the name of a status. -/
def statusName : Status → String
  | .ok => "OK"
  | .failed .invalidKeyLength => "InvalidKeyLength"
  | .failed .invalidIvLength => "InvalidIvLength"
  | .failed .invalidCiphertextLength => "InvalidCiphertextLength"
  | .failed .paddingError => "PaddingError"
  | .failed .noKey => "NoKey"
  | .failed .badCommand => "BadCommand"

/-- R84: a response is written `OK <bytes>` or the status name alone. -/
def writeResponse (q : Packet) : Option (List Char) :=
  match readResponse q with
  | some (.ok, data) => some ((statusName .ok).toList ++ ' ' :: writeBytes data)
  | some (.failed f, _) => some (statusName (.failed f)).toList
  | none => none

end Sys2Proof.Machine
end

