-- ==== Sys2Proof/Safety.lean ====
section
/-! DEFINITION. What a good state of CORE is, in the terms the statements use: the invariant that every step keeps, and
the relation between two instances that hold the same key. -/

namespace Sys2Proof.Machine

/-- R35: the words are the expansion of some 16-byte key. -/
def IsSchedule (w : RoundKeys) : Prop :=
  ∃ k : Block, w = keyExpansion k

/-- R76, R77, R207: a response packet whose length fits `RLEN`, with no data unless the status is OK. -/
def IsResponse (q : Packet) : Prop :=
  ∃ (status : Status) (data : List Byte),
    q = responsePacket status data ∧ data.length < 2 ^ 32 ∧ (status ≠ .ok → data = [])

/-- The invariant of one instance. -/
structure State.Inv (s : State) : Prop where
  /-- R35: `KV = 1` implies that `RK` is the expansion of a key. -/
  bound : ∀ w, s.rk = some w → IsSchedule w
  /-- R29: `IBUF` is empty between commands. -/
  ibufEmpty : s.ibuf = []
  /-- R29: `OBUF` is empty between commands. -/
  obufEmpty : s.obuf = []
  /-- R70, R76: everything delivered on `RSP` is a response packet. -/
  responses : ∀ q ∈ s.rsp, IsResponse q

/-- R30: two instances agree on what a response may depend on: the pair (`KV`, `RK`), and the parameter `MAXLEN`. -/
structure State.SameBinding (s t : State) : Prop where
  rk : s.rk = t.rk
  maxLen : s.maxLen = t.maxLen

/-- R207: what a command that only responds leaves as it was: `KV` and `RK`, the parameter, and what the host still
presents. The buffers are empty afterwards (R29). -/
structure State.KeepsBinding (s t : State) : Prop where
  rk : t.rk = s.rk
  maxLen : t.maxLen = s.maxLen
  cmd : t.cmd = s.cmd
  ibuf : t.ibuf = []
  obuf : t.obuf = []

/-- R70, R180: an outcome that delivers exactly one response, of this status and data, and leaves `KV`, `RK` and the
parameter as `s` has them. -/
def Responds (s : State) (o : Host.Outcome State Fault Refusal) (status : Status) (data : List Byte) : Prop :=
  ∃ t, o = .next t ∧ t.rsp = s.rsp ++ [responsePacket status data] ∧ s.KeepsBinding t

/-- R70, R180: a step that takes the packet standing first at `CMD`, delivers exactly one response, of this status and
data, and leaves `KV`, `RK` and the parameter as they were. -/
def StepResponds (s : State) (status : Status) (data : List Byte) : Prop :=
  ∃ t, step s = .next t ∧ t.rsp = s.rsp ++ [responsePacket status data] ∧ t.rk = s.rk ∧ t.maxLen = s.maxLen ∧
    t.cmd = s.cmd.tail ∧ t.ibuf = [] ∧ t.obuf = []

/-- R208: the failures in the order of their priority, as the rule lists them. -/
def failurePriority : List Failure :=
  [.badCommand, .noKey, .invalidKeyLength, .invalidIvLength, .invalidCiphertextLength, .paddingError]

/-- R201 to R206: the cause of each failure by itself, for a packet given to an instance in state `s`. PaddingError "can
only be found after decryption, which needs all the other checks to have passed" (R208). -/
def failureApplies (s : State) (p : Packet) (f : Failure) : Bool :=
  match f, decode s.maxLen p with
  | .badCommand, .error _ => true
  | .noKey, .ok (.cbcenc _ _) => !s.kv
  | .noKey, .ok (.cbcdec _ _) => !s.kv
  | .invalidKeyLength, .ok (.bind a) => a.length != 16
  | .invalidIvLength, .ok (.cbcenc a _) => a.length != 16
  | .invalidIvLength, .ok (.cbcdec a _) => a.length != 16
  | .invalidCiphertextLength, .ok (.cbcdec _ data) => data.length == 0 || data.length % 16 != 0
  | .paddingError, .ok (.cbcdec a data) =>
    match s.rk, blockOfBytes? a with
    | some w, some iv => (unpad (chainDecrypt data iv w)).isNone
    | _, _ => false
  | _, _ => false

/-- R22, R35, R54: the key that is bound after an event at the ports: reset binds none, a successful BIND its key, and
anything else leaves what was bound. -/
def keyAfter (maxLen : Nat) (key : Option Block) (e : PortEvent) : Option Block :=
  match e with
  | .reset => none
  | .resetDuring _ => none
  | .command p =>
    match decode maxLen p with
    | .ok (.bind a) => (blockOfBytes? a).orElse (fun _ => key)
    | _ => key

end Sys2Proof.Machine
end

