-- ==== Sys2Proof/Certificates/Slice0/Obligations.lean ====
section
/-! DEFINITION. The statements about CORE, in the order of the rules of the spec. -/

open Sys2Proof Sys2Proof.Machine

/-! ### Packets: `30_encoding.md` -/

/-- R71, R73, R75, R79: no byte of a packet is dropped: decoding the packet of a well-formed command gives the command,
for every length of its operands that a packet can carry and for every `MAXLEN`. -/
def Obligations.DecodeOfEncode : Prop :=
  ∀ (m : MaxLen) (i : Instr), i.wellFormed m = true → decode m (encode i) = .ok i

/-- R79, R83: a packet that decodes to a command is that command's packet and no other: one command has one packet. -/
def Obligations.EncodeOfDecode : Prop :=
  ∀ (m : MaxLen) (p : Packet) (i : Instr), decode m p = .ok i → i.wellFormed m = true ∧ encode i = p

/-- R71, R75, R84: the header bytes and operands of packets written out in the spec. -/
def Obligations.SpecPacketsDecode : Prop :=
  ∀ m : MaxLen, 1 ≤ m.val →
    decode m [0x01, 0x09, 0, 0, 0, 0, 0x73, 0x68, 0x6f, 0x72, 0x74, 0x20, 0x6b, 0x65, 0x79] =
        .ok (.bind [0x73, 0x68, 0x6f, 0x72, 0x74, 0x20, 0x6b, 0x65, 0x79]) ∧
      decode m [0x02, 0x08, 0, 0, 0, 1, 0x73, 0x68, 0x6f, 0x72, 0x74, 0x20, 0x69, 0x76, 0x41] =
        .ok (.cbcenc [0x73, 0x68, 0x6f, 0x72, 0x74, 0x20, 0x69, 0x76] [0x41]) ∧
      decode m [0x03, 0x03, 0, 0, 0, 0x11, 0x61, 0x62, 0x63, 0, 1, 2, 3, 4, 5, 6, 7, 8, 9, 10, 11, 12, 13, 14, 15, 16] =
        .ok (.cbcdec [0x61, 0x62, 0x63] [0, 1, 2, 3, 4, 5, 6, 7, 8, 9, 10, 11, 12, 13, 14, 15, 16])

/-- R80: a reserved opcode selects no command, whatever the other bytes of the packet: BadCommand, `RLEN = 0`, and `KV`
and `RK` unchanged. -/
def Obligations.ReservedOpcodesAreBadCommands : Prop :=
  ∀ (s : State) (opc : Byte) (more : List Byte) (rest : List PortEvent),
    s.cmd = .command (opc :: more) :: rest → opc ≠ 0x01 → opc ≠ 0x02 → opc ≠ 0x03 →
      StepResponds s (.failed .badCommand) []

/-- R81: a packet shorter than the header, or whose delivered length is not `6 + ALEN + DLEN`, or a BIND with data, or
with `DLEN` over the limit of its opcode, is answered BadCommand and changes no state. -/
def Obligations.MalformedPacketsAreBadCommands : Prop :=
  ∀ (s : State) (p : Packet) (rest : List PortEvent), s.cmd = .command p :: rest →
    (p.length < 6 ∨ ∃ opc alen l3 l2 l1 l0 body, p = opc :: alen :: l3 :: l2 :: l1 :: l0 :: body ∧
      (p.length ≠ 6 + alen.toNat + beNat l3 l2 l1 l0 ∨ (opc = 0x01 ∧ beNat l3 l2 l1 l0 ≠ 0) ∨
        (opc = 0x02 ∧ s.maxLen.val < beNat l3 l2 l1 l0) ∨ (opc = 0x03 ∧ s.maxLen.val + 16 < beNat l3 l2 l1 l0))) →
      StepResponds s (.failed .badCommand) []

/-- R73, R76, R77: a response packet is read back as its status and data, so the seven statuses have seven codes and
`RLEN` says how long the data are; a failing response is five bytes; the codes are those of the rule. -/
def Obligations.ResponsesReadBack : Prop :=
  (∀ (status : Status) (data : List Byte), data.length < 2 ^ 32 →
    readResponse (responsePacket status data) = some (status, data)) ∧
  (∀ f : Failure, responsePacket (.failed f) [] = [f.code, 0x00, 0x00, 0x00, 0x00]) ∧
  Status.ok.code = 0x00 ∧ Failure.invalidKeyLength.code = 0x01 ∧ Failure.invalidIvLength.code = 0x02 ∧
    Failure.invalidCiphertextLength.code = 0x03 ∧ Failure.paddingError.code = 0x04 ∧ Failure.noKey.code = 0x10 ∧
    Failure.badCommand.code = 0x11

/-- R84: a line that writes a command, with each operand in any of the three forms of `<bytes>` (a run of hex pairs with
optional spaces, a quoted ASCII string, `-`), any number of spaces between the parts and a comment or none at its end, is
read as that command; every byte sequence can be written so; and what the assembler makes of a line is the packet of the
command it writes, which decodes to that command. The spaces before a comment, and that a line no packet can carry has
no packet, are the model's choice (log entry 12). -/
def Obligations.AssembledPacketsDecode : Prop :=
  (∀ (key : BytesForm) (n e : Nat) (comment : Option (List Char)), key.allowed = true →
    readCommand (['B', 'I', 'N', 'D'] ++ operandText n ['k', 'e', 'y'] key ++ lineEnd e comment) =
      some (.bind key.bytes)) ∧
  (∀ (iv data : BytesForm) (n n' e : Nat) (comment : Option (List Char)), iv.allowed = true → data.allowed = true →
    readCommand (['C', 'B', 'C', 'E', 'N', 'C'] ++ operandText n ['i', 'v'] iv ++
        operandText n' ['d', 'a', 't', 'a'] data ++ lineEnd e comment) = some (.cbcenc iv.bytes data.bytes) ∧
      readCommand (['C', 'B', 'C', 'D', 'E', 'C'] ++ operandText n ['i', 'v'] iv ++
        operandText n' ['d', 'a', 't', 'a'] data ++ lineEnd e comment) = some (.cbcdec iv.bytes data.bytes)) ∧
  (∀ d : List Byte, ∃ form : BytesForm, form.allowed = true ∧ form.bytes = d ∧ form.text = writeBytes d) ∧
  (∀ (m : MaxLen) (line : List Char) (i : Instr), readCommand line = some i →
    (i.wellFormed m = true → assemble m line = some (encode i)) ∧ (i.wellFormed m = false → assemble m line = none)) ∧
  ∀ (m : MaxLen) (line : List Char) (p : Packet), assemble m line = some p →
    ∃ i, readCommand line = some i ∧ decode m p = .ok i

/-! ### Steps: `30_encoding.md` R70, `70_reset_and_hazards.md` -/

/-- R70, R180: when the packet standing first decodes to a command, the step is that command, in the state where the
packet has been taken: it no longer stands at `CMD`, and its operand and data part is `IBUF`. -/
def Obligations.StepRunsTheDecodedCommand : Prop :=
  ∀ (s : State) (p : Packet) (rest : List PortEvent) (i : Instr),
    s.cmd = .command p :: rest → decode s.maxLen p = .ok i →
      step s = exec i { s with cmd := rest, ibuf := p.drop 6 }

/-- R232: with nothing presented CORE waits. -/
def Obligations.StepWaitsForAPacket : Prop :=
  ∀ s : State, s.cmd = [] → step s = .next s

/-- R200: "CORE never halts": every step of every state ends in a next state. -/
def Obligations.EveryStepEndsInANextState : Prop :=
  ∀ s : State, ∃ t, step s = .next t

/-- R33, R230: what reset leaves: no key bound, the buffers empty. -/
def Obligations.ResetBindsNoKey : Prop :=
  State.reset.kv = false ∧ State.reset.rk = none ∧ State.reset.ibuf = [] ∧ State.reset.obuf = []

/-- R230, R231: `RST`, in a command or between commands, leaves no key bound and the buffers empty and delivers no
response; what the host presents after it stands next. -/
def Obligations.ResetDropsTheKeyAndAnswersNothing : Prop :=
  ∀ (s : State) (e : PortEvent) (rest : List PortEvent), s.cmd = e :: rest →
    (e = .reset ∨ ∃ p, e = .resetDuring p) →
      ∃ t, step s = .next t ∧ t.kv = false ∧ t.rk = none ∧ t.rsp = s.rsp ∧ t.ibuf = [] ∧ t.obuf = [] ∧
        t.cmd = rest ∧ t.maxLen = s.maxLen

/-! ### Constant tables and field: `20_memory.md`, `41_block_cipher.md` R121 to R124 -/

/-- R44: `INVSBOX` is the inverse permutation of `SBOX`. -/
def Obligations.InverseSboxIsTheInverse : Prop :=
  (∀ b : Byte, invSbox (sbox b) = b ∧ sbox (invSbox b) = b) ∧ invSbox 0x00 = 0x52 ∧ invSbox 0x63 = 0x00 ∧
    invSbox 0xed = 0x53

/-- R45, R103: `RCON[1] = 0x01`, each entry is `xtime` of the one before, and only byte 0 of a round-constant word is not
zero. -/
def Obligations.RoundConstantsArePowers : Prop :=
  rcon 0 = 0x01 ∧ (∀ j : Fin 9, rcon j.succ = xtime (rcon j.castSucc)) ∧
    ∀ j : Fin 10, rconWord j = ⟨rcon j, 0x00, 0x00, 0x00⟩

/-- R46: the S-box is the affine map of the field inverse; no entry is its own index or the index with all bits
inverted; the exclusive-or and the sum of the entries are as the rule says. -/
def Obligations.SboxIsTheConstruction : Prop :=
  (∀ a : Byte, sbox a = sboxConstruction a) ∧ ginv 0x53 = 0xca ∧ sbox 0x53 = 0xed ∧
    (∀ b : Byte, invSbox (sbox b) = b ∧ sbox b ≠ b ∧ sbox b ≠ b ^^^ 0xff) ∧
    (List.range 256).foldl (fun x b => x ^^^ sbox (BitVec.ofNat 8 b)) 0x00 = 0x00 ∧
    ((List.range 256).map (fun b => (sbox (BitVec.ofNat 8 b)).toNat)).sum = 32640 ∧
    ((List.range 256).map (fun b => (invSbox (BitVec.ofNat 8 b)).toNat)).sum = 32640

/-- R123: `gmul` is commutative and associative, distributes over `xor`, has identity `0x01` and annihilator `0x00`, and
every non-zero byte has exactly one inverse. -/
def Obligations.FieldLaws : Prop :=
  (∀ a b : Byte, gmul a b = gmul b a) ∧
  (∀ a b c : Byte, gmul (gmul a b) c = gmul a (gmul b c)) ∧
  (∀ a b c : Byte, gmul a (b ^^^ c) = gmul a b ^^^ gmul a c) ∧
  (∀ a : Byte, gmul 0x01 a = a ∧ gmul 0x00 a = 0x00) ∧
  (∀ a : Byte, a ≠ 0x00 → gmul a (ginv a) = 0x01 ∧ ∀ v, gmul a v = 0x01 → v = ginv a) ∧
  ginv 0x00 = 0x00

/-- R124: the six constant multipliers, made of `xtime` and `xor`, are the products of `gmul`. -/
def Obligations.ConstantMultipliersAreProducts : Prop :=
  ∀ a : Byte, gmul a 0x02 = xtime a ∧ gmul a 0x03 = xtime a ^^^ a ∧
    gmul a 0x09 = xtime (xtime (xtime a)) ^^^ a ∧
    gmul a 0x0b = xtime (xtime (xtime a)) ^^^ xtime a ^^^ a ∧
    gmul a 0x0d = xtime (xtime (xtime a)) ^^^ xtime (xtime a) ^^^ a ∧
    gmul a 0x0e = xtime (xtime (xtime a)) ^^^ xtime (xtime a) ^^^ xtime a

/-! ### Key schedule: `40_key_schedule.md` -/

/-- R101, R102: RotWord moves the bytes one place toward index 0, four applications are the identity, and it commutes
with SubWord, which maps each byte through the forward S-box. -/
def Obligations.RotWordAndSubWordCommute : Prop :=
  ∀ b0 b1 b2 b3 : Byte, rotWord ⟨b0, b1, b2, b3⟩ = ⟨b1, b2, b3, b0⟩ ∧
    subWord ⟨b0, b1, b2, b3⟩ = ⟨sbox b0, sbox b1, sbox b2, sbox b3⟩ ∧
    rotWord (rotWord (rotWord (rotWord ⟨b0, b1, b2, b3⟩))) = ⟨b0, b1, b2, b3⟩ ∧
    rotWord (subWord ⟨b0, b1, b2, b3⟩) = subWord (rotWord ⟨b0, b1, b2, b3⟩)

/-- R104: the recurrence of the key expansion, for every key and every word index 4 to 43 (the index is `n + 4`), from
the four words of the key. -/
def Obligations.KeyExpansionRecurrence : Prop :=
  ∀ (k : Block) (w : RoundKeys), w = keyExpansion k →
    w[0] = k.c0 ∧ w[1] = k.c1 ∧ w[2] = k.c2 ∧ w[3] = k.c3 ∧
      (∀ j : Fin 10, w[4 * j.val + 4] = w[4 * j.val].xor ((subWord (rotWord w[4 * j.val + 3])).xor (rconWord j))) ∧
      ∀ n : Fin 40, n.val % 4 ≠ 0 → w[n.val + 4] = w[n.val].xor w[n.val + 3]

/-- R23, R107: the key is round key 0, different keys give different schedules, the recurrence runs backwards, and any
one round key determines the key. -/
def Obligations.OneRoundKeyDeterminesTheKey : Prop :=
  ∀ k k' : Block, roundKey (keyExpansion k) 0 = k ∧
    (keyExpansion k = keyExpansion k' → k = k') ∧
    (∀ n : Fin 40, (keyExpansion k)[n.val] =
      (keyExpansion k)[n.val + 4].xor (scheduleTemp n (keyExpansion k)[n.val + 3])) ∧
    ∀ r : Fin 11, roundKey (keyExpansion k) r = roundKey (keyExpansion k') r → k = k'

/-! ### Block cipher: `41_block_cipher.md` -/

/-- R125: AddRoundKey pairs byte `i` with byte `i`, and is its own inverse. -/
def Obligations.AddRoundKeyIsItsOwnInverse : Prop :=
  ∀ s k : Block, (∀ i, blockByte (addRoundKey s k) i = blockByte s i ^^^ blockByte k i) ∧
    addRoundKey (addRoundKey s k) k = s ∧
    addRoundKey s ⟨⟨0, 0, 0, 0⟩, ⟨0, 0, 0, 0⟩, ⟨0, 0, 0, 0⟩, ⟨0, 0, 0, 0⟩⟩ = s

/-- R126, R127: SubBytes and InvSubBytes map each byte through its table, and each undoes the other. -/
def Obligations.SubBytesMapsEachByte : Prop :=
  ∀ s : Block, (∀ i, blockByte (subBytes s) i = sbox (blockByte s i)) ∧
    (∀ i, blockByte (invSubBytes s) i = invSbox (blockByte s i)) ∧
    invSubBytes (subBytes s) = s ∧ subBytes (invSubBytes s) = s

/-- R128, R129: the flat forms of ShiftRows and InvShiftRows; the arithmetic of the index is that of `Fin 16`, modulo
16. Each undoes the other, and four applications are the identity. -/
def Obligations.ShiftRowsPermutesTheBytes : Prop :=
  ∀ s : Block, (∀ i : Fin 16, blockByte (shiftRows s) i = blockByte s (i + 4 * (i % 4))) ∧
    (∀ i : Fin 16, blockByte (invShiftRows s) i = blockByte s (i - 4 * (i % 4))) ∧
    invShiftRows (shiftRows s) = s ∧ shiftRows (invShiftRows s) = s ∧
    shiftRows (shiftRows (shiftRows (shiftRows s))) = s

/-- R130: MixColumns replaces each column by its product with the matrix of `02 03 01 01`, in terms of `gmul`. -/
def Obligations.MixColumnsMultipliesEachColumn : Prop :=
  ∀ (s : Block) (c : Fin 4) (a0 a1 a2 a3 : Byte), blockColumn s c = ⟨a0, a1, a2, a3⟩ →
    blockColumn (mixColumns s) c =
      ⟨gmul a0 0x02 ^^^ gmul a1 0x03 ^^^ a2 ^^^ a3, a0 ^^^ gmul a1 0x02 ^^^ gmul a2 0x03 ^^^ a3,
        a0 ^^^ a1 ^^^ gmul a2 0x02 ^^^ gmul a3 0x03, gmul a0 0x03 ^^^ a1 ^^^ a2 ^^^ gmul a3 0x02⟩

/-- R131: InvMixColumns replaces each column by its product with the matrix of `0e 0b 0d 09`, and it and MixColumns undo
each other. -/
def Obligations.InvMixColumnsUndoesMixColumns : Prop :=
  (∀ (s : Block) (c : Fin 4) (a0 a1 a2 a3 : Byte), blockColumn s c = ⟨a0, a1, a2, a3⟩ →
    blockColumn (invMixColumns s) c =
      ⟨gmul a0 0x0e ^^^ gmul a1 0x0b ^^^ gmul a2 0x0d ^^^ gmul a3 0x09,
        gmul a0 0x09 ^^^ gmul a1 0x0e ^^^ gmul a2 0x0b ^^^ gmul a3 0x0d,
        gmul a0 0x0d ^^^ gmul a1 0x09 ^^^ gmul a2 0x0e ^^^ gmul a3 0x0b,
        gmul a0 0x0b ^^^ gmul a1 0x0d ^^^ gmul a2 0x09 ^^^ gmul a3 0x0e⟩) ∧
  ∀ s : Block, invMixColumns (mixColumns s) = s ∧ mixColumns (invMixColumns s) = s

/-- R141: what one lane of the output of a step depends on: a byte on the byte at its place (and the key byte there), a
column on the column at its place. -/
def Obligations.LanesAreIndependent : Prop :=
  ∀ s t k l : Block,
    (∀ i, blockByte s i = blockByte t i →
      blockByte (subBytes s) i = blockByte (subBytes t) i ∧ blockByte (invSubBytes s) i = blockByte (invSubBytes t) i ∧
        (blockByte k i = blockByte l i → blockByte (addRoundKey s k) i = blockByte (addRoundKey t l) i)) ∧
    ∀ c, blockColumn s c = blockColumn t c →
      blockColumn (mixColumns s) c = blockColumn (mixColumns t) c ∧
        blockColumn (invMixColumns s) c = blockColumn (invMixColumns t) c

/-- R135, R136, R139: the rounds of the two transforms, each round key used once, EncryptBlock in increasing order and
DecryptBlock in decreasing order. -/
def Obligations.RoundKeysAreUsedInOrder : Prop :=
  ∀ (b : Block) (w : RoundKeys),
    encryptBlock b w =
      (let mid := fun (s : Block) (r : Fin 11) => addRoundKey (mixColumns (shiftRows (subBytes s))) (roundKey w r)
      let s9 := mid (mid (mid (mid (mid (mid (mid (mid (mid (addRoundKey b (roundKey w 0)) 1) 2) 3) 4) 5) 6) 7) 8) 9
      addRoundKey (shiftRows (subBytes s9)) (roundKey w 10)) ∧
    decryptBlock b w =
      (let mid := fun (s : Block) (r : Fin 11) => invMixColumns (addRoundKey (invSubBytes (invShiftRows s)) (roundKey w r))
      let s1 := mid (mid (mid (mid (mid (mid (mid (mid (mid (addRoundKey b (roundKey w 10)) 9) 8) 7) 6) 5) 4) 3) 2) 1
      addRoundKey (invSubBytes (invShiftRows s1)) (roundKey w 0))

/-- R137: for every block and every 44 words, the two transforms undo each other. -/
def Obligations.BlockTransformsAreInverse : Prop :=
  ∀ (b : Block) (w : RoundKeys), decryptBlock (encryptBlock b w) w = b ∧ encryptBlock (decryptBlock b w) w = b

/-! ### Chaining: `42_cbc_chain.md` -/

/-- R150, R151: ChainEncrypt keeps the length, and ciphertext block `i` is the encryption of plaintext block `i`
exclusive-or the IV (`i = 0`) or ciphertext block `i - 1`. -/
def Obligations.ChainEncryptChainsTheBlocks : Prop :=
  ∀ (d : List Byte) (iv : Block) (w : RoundKeys), d.length % 16 = 0 →
    (chainEncrypt d iv w).length = d.length ∧
    ∀ i, i < d.length / 16 → ∃ b previous, blockAt d i = some b ∧
      (if i = 0 then previous = iv else blockAt (chainEncrypt d iv w) (i - 1) = some previous) ∧
      blockAt (chainEncrypt d iv w) i = some (encryptBlock (b.xor previous) w)

/-- R151, R152: the first blocks of the ciphertext depend on no later block of the input. What follows may be any buffer;
where it is not whole blocks the spec gives ChainEncrypt no meaning (U18), and that its tail is dropped is the model's
choice (log entry 7). -/
def Obligations.CiphertextDependsOnNoLaterBlock : Prop :=
  ∀ (d e : List Byte) (iv : Block) (w : RoundKeys), d.length % 16 = 0 →
    (chainEncrypt (d ++ e) iv w).take d.length = chainEncrypt d iv w

/-- R191, R238: a chain is continued by giving the last ciphertext block as the next IV: the two encryptions together are the
encryption of the whole. The continuation may be any buffer; where it is not whole blocks the spec gives ChainEncrypt no
meaning (U18), and that its tail is dropped is the model's choice (log entry 7). -/
def Obligations.LastCiphertextBlockContinuesTheChain : Prop :=
  ∀ (d e : List Byte) (iv : Block) (w : RoundKeys), d.length % 16 = 0 → d.length ≠ 0 →
    ∃ last, blockAt (chainEncrypt d iv w) (d.length / 16 - 1) = some last ∧
      chainEncrypt (d ++ e) iv w = chainEncrypt d iv w ++ chainEncrypt e last w

/-- R154, R155: ChainDecrypt keeps the length, and in its closed form plaintext block `i` is the decryption of ciphertext
block `i` exclusive-or the IV (`i = 0`) or ciphertext block `i - 1`. -/
def Obligations.ChainDecryptHasAClosedForm : Prop :=
  ∀ (c : List Byte) (iv : Block) (w : RoundKeys), c.length % 16 = 0 →
    (chainDecrypt c iv w).length = c.length ∧
    ∀ i, i < c.length / 16 → ∃ b previous, blockAt c i = some b ∧
      (if i = 0 then previous = iv else blockAt c (i - 1) = some previous) ∧
      blockAt (chainDecrypt c iv w) i = some ((decryptBlock b w).xor previous)

/-- R157: the two chains undo each other, for every buffer of whole blocks, every IV and every 44 words. -/
def Obligations.ChainsAreInverse : Prop :=
  ∀ (d : List Byte) (iv : Block) (w : RoundKeys), d.length % 16 = 0 →
    chainDecrypt (chainEncrypt d iv w) iv w = d

/-- R156: one bit of ciphertext flipped in block `j` changes plaintext block `j`, flips exactly the same bit of block
`j + 1` if there is one, and changes no other block. -/
def Obligations.OneFlippedBitSpoilsTwoBlocks : Prop :=
  ∀ (c : List Byte) (iv : Block) (w : RoundKeys) (k : Nat) (bit : Fin 8), c.length % 16 = 0 → k < c.length →
    blockAt (chainDecrypt (flipBit c k bit) iv w) (k / 16) ≠ blockAt (chainDecrypt c iv w) (k / 16) ∧
    (k / 16 + 1 < c.length / 16 →
      blockAt (chainDecrypt (flipBit c k bit) iv w) (k / 16 + 1) =
        blockAt (flipBit (chainDecrypt c iv w) (k + 16) bit) (k / 16 + 1)) ∧
    ∀ i, i ≠ k / 16 → i ≠ k / 16 + 1 →
      blockAt (chainDecrypt (flipBit c k bit) iv w) i = blockAt (chainDecrypt c iv w) i

/-- R154: a wrong IV with the right key spoils block 0 only, by the exclusive-or of the two IVs. -/
def Obligations.WrongIvSpoilsBlockZeroOnly : Prop :=
  ∀ (c : List Byte) (iv iv' : Block) (w : RoundKeys), c.length % 16 = 0 →
    (∀ b, blockAt (chainDecrypt c iv w) 0 = some b →
      blockAt (chainDecrypt c iv' w) 0 = some (b.xor (iv.xor iv'))) ∧
    (chainDecrypt c iv' w).drop 16 = (chainDecrypt c iv w).drop 16

/-! ### Padding: `43_padding.md` -/

/-- R167: the length after Pad, and what it appends. -/
def Obligations.PadLengthens : Prop :=
  ∀ d : List Byte, (pad d).length = d.length + 16 - d.length % 16 ∧ (pad d).length % 16 = 0 ∧ 16 ≤ (pad d).length ∧
    d.length < (pad d).length ∧ (pad d).length ≤ d.length + 16 ∧ (pad d).length = 16 * (d.length / 16 + 1) ∧
    pad d = d ++ List.replicate (16 - d.length % 16) (BitVec.ofNat 8 (16 - d.length % 16))

/-- R166, R168: Pad appends `p` bytes of value `p`; Unpad accepts exactly the buffers that end in `p` bytes of value `p` for
a `p` in 1..16, and returns what stands before them; it rejects every other buffer, the empty one included. -/
def Obligations.UnpadAcceptsExactlyPaddedBuffers : Prop :=
  (∀ d : List Byte, ∃ p, 1 ≤ p ∧ p ≤ 16 ∧ p = 16 - d.length % 16 ∧ pad d = d ++ List.replicate p (BitVec.ofNat 8 p)) ∧
  ∀ d m : List Byte, unpad d = some m ↔ ∃ p, 1 ≤ p ∧ p ≤ 16 ∧ d = m ++ List.replicate p (BitVec.ofNat 8 p)

/-- R170: Unpad undoes Pad; and any buffer that ends in `0x01` unpads, so a successful Unpad is no evidence of anything. -/
def Obligations.UnpadUndoesPad : Prop :=
  ∀ d : List Byte, unpad (pad d) = some d ∧ unpad (d ++ [0x01]) = some d

/-! ### Commands: `44_commands.md`, `60_exceptions.md` -/

/-- R181: BIND with a 16-byte key completes: all 44 words of `RK` are the expansion of the key, `KV` is 1, the response is OK
without data, and nothing else changes. -/
def Obligations.BindWithSixteenBytesBinds : Prop :=
  ∀ (s : State) (a : List Byte), a.length = 16 →
    ∃ k t, blockOfBytes? a = some k ∧ blockBytes k = a ∧ exec (.bind a) s = .next t ∧
      t.rk = some (keyExpansion k) ∧ t.kv = true ∧ t.rsp = s.rsp ++ [[0x00, 0x00, 0x00, 0x00, 0x00]] ∧
      t.maxLen = s.maxLen ∧ t.cmd = s.cmd ∧ t.ibuf = [] ∧ t.obuf = []

/-- R182, R201: a BIND that fails answers InvalidKeyLength without data and changes neither `KV` nor `RK`, and neither does a
packet that is answered BadCommand. -/
def Obligations.FailedBindChangesNothing : Prop :=
  (∀ (s : State) (a : List Byte), a.length ≠ 16 → Responds s (exec (.bind a) s) (.failed .invalidKeyLength) []) ∧
  ∀ (s : State) (p : Packet) (rest : List PortEvent) (r : Malformed),
    s.cmd = .command p :: rest → decode s.maxLen p = .error r → StepResponds s (.failed .badCommand) []

/-- R107, R183: a successful BIND replaces the whole binding: what is bound afterwards depends on the new key alone. -/
def Obligations.RebindingForgetsTheOldKey : Prop :=
  ∀ (s s' : State) (a : List Byte), a.length = 16 →
    ∃ t t', exec (.bind a) s = .next t ∧ exec (.bind a) s' = .next t' ∧ t.rk = t'.rk ∧ t.kv = true

/-- R184: with a key bound and a 16-byte IV, CBCENC completes on every plaintext: the response is OK with the chained
encryption of the padded plaintext, and `KV`, `RK` and everything else stay. -/
def Obligations.CbcencCompletes : Prop :=
  ∀ (s : State) (w : RoundKeys) (a data : List Byte), s.rk = some w → a.length = 16 →
    ∃ iv, blockOfBytes? a = some iv ∧ blockBytes iv = a ∧
      Responds s (exec (.cbcenc a data) s) .ok (chainEncrypt (pad data) iv w)

/-- R202, R205: where CBCENC fails: NoKey without a key, whatever the operands; InvalidIvLength with one. -/
def Obligations.CbcencFailures : Prop :=
  ∀ (s : State) (a data : List Byte),
    (s.kv = false → Responds s (exec (.cbcenc a data) s) (.failed .noKey) []) ∧
    (s.kv = true → a.length ≠ 16 → Responds s (exec (.cbcenc a data) s) (.failed .invalidIvLength) [])

/-- R185: the length of the ciphertext of an OK response to CBCENC. -/
def Obligations.CiphertextLength : Prop :=
  ∀ (s : State) (a data c : List Byte), data.length ≤ s.maxLen.val →
    Responds s (exec (.cbcenc a data) s) .ok c →
      c.length = data.length + 16 - data.length % 16 ∧ c.length % 16 = 0 ∧ 16 ≤ c.length ∧
        c.length ≤ s.maxLen.val + 16

/-- R187: with a key bound, a 16-byte IV and a ciphertext of whole blocks whose decryption ends in a valid padding, CBCDEC
completes: the response is OK with the unpadded decryption, and `KV`, `RK` and everything else stay. -/
def Obligations.CbcdecCompletes : Prop :=
  ∀ (s : State) (w : RoundKeys) (a data plain : List Byte) (iv : Block), s.rk = some w → blockOfBytes? a = some iv →
    data.length ≠ 0 → data.length % 16 = 0 → unpad (chainDecrypt data iv w) = some plain →
      Responds s (exec (.cbcdec a data) s) .ok plain

/-- R202 to R205: where CBCDEC fails. No block is decrypted before the first three; the last carries no cause and none of
the decrypted bytes. -/
def Obligations.CbcdecFailures : Prop :=
  ∀ (s : State) (a data : List Byte),
    (s.kv = false → Responds s (exec (.cbcdec a data) s) (.failed .noKey) []) ∧
    (s.kv = true → a.length ≠ 16 → Responds s (exec (.cbcdec a data) s) (.failed .invalidIvLength) []) ∧
    (s.kv = true → a.length = 16 → (data.length = 0 ∨ data.length % 16 ≠ 0) →
      Responds s (exec (.cbcdec a data) s) (.failed .invalidCiphertextLength) []) ∧
    ∀ w iv, s.rk = some w → blockOfBytes? a = some iv → data.length ≠ 0 → data.length % 16 = 0 →
      unpad (chainDecrypt data iv w) = none → Responds s (exec (.cbcdec a data) s) (.failed .paddingError) []

/-- R188: the length of the plaintext of an OK response to CBCDEC: `p` is the last byte of the decrypted buffer. -/
def Obligations.PlaintextLength : Prop :=
  ∀ (s : State) (w : RoundKeys) (a data plain : List Byte) (iv : Block), s.rk = some w → blockOfBytes? a = some iv →
    Responds s (exec (.cbcdec a data) s) .ok plain →
      ∃ p : Byte, (chainDecrypt data iv w).getLast? = some p ∧ 1 ≤ p.toNat ∧ p.toNat ≤ 16 ∧
        plain.length + p.toNat = data.length ∧ data.length - 16 ≤ plain.length ∧ plain.length ≤ data.length - 1

/-- R180, R207: every command of every state delivers exactly one response; with a status other than OK it has no data and
leaves `KV` and `RK` exactly as they were. -/
def Obligations.FailuresLeaveNoTrace : Prop :=
  ∀ (i : Instr) (s : State), ∃ t status data, exec i s = .next t ∧ t.rsp = s.rsp ++ [responsePacket status data] ∧
    (status ≠ .ok → data = [] ∧ s.KeepsBinding t)

/-- R30, R184, R187: CBCENC and CBCDEC write no state, whatever their outcome. -/
def Obligations.CbcCommandsKeepTheBinding : Prop :=
  ∀ (s : State) (a data : List Byte),
    (∃ t, exec (.cbcenc a data) s = .next t ∧ s.KeepsBinding t) ∧
    ∃ t, exec (.cbcdec a data) s = .next t ∧ s.KeepsBinding t

/-- R208: of the failures that apply to a command, each by its own cause, exactly one is reported, the first in the order of
the rule; where none applies the response is OK. -/
def Obligations.TheFirstFailureIsReported : Prop :=
  ∀ (s : State) (p : Packet) (rest : List PortEvent), s.cmd = .command p :: rest →
    (∀ f, failurePriority.find? (failureApplies s p) = some f → StepResponds s (.failed f) []) ∧
    (failurePriority.find? (failureApplies s p) = none →
      ∃ t data, step s = .next t ∧ t.rsp = s.rsp ++ [responsePacket .ok data])

/-- R189: the round trip: the packet of CBCENC with a plaintext of at most `MAXLEN` bytes is answered OK with some data, and
the packet of CBCDEC with the same IV and that data, given to any instance that holds the same binding, is answered OK
with the plaintext. -/
def Obligations.DecryptionUndoesEncryption : Prop :=
  ∀ (s : State) (w : RoundKeys) (iv plain : List Byte) (rest : List PortEvent),
    s.rk = some w → iv.length = 16 → plain.length ≤ s.maxLen.val →
    s.cmd = .command (encode (.cbcenc iv plain)) :: rest →
      ∃ c, StepResponds s .ok c ∧
        ∀ (t : State) (rest' : List PortEvent), s.SameBinding t → t.cmd = .command (encode (.cbcdec iv c)) :: rest' →
          StepResponds t .ok plain

/-- R24, R30, R239: the response to a packet, and the binding after it, are a function of `KV`, `RK` and the packet (and the
parameter `MAXLEN`): two instances that agree on those give the same response, whatever their working registers, buffers
and earlier commands. -/
def Obligations.ResponsesDependOnBindingAndPacketAlone : Prop :=
  ∀ (s t : State) (p : Packet) (rest rest' : List PortEvent), s.SameBinding t →
    s.cmd = .command p :: rest → t.cmd = .command p :: rest' →
      ∃ s' t' q, step s = .next s' ∧ step t = .next t' ∧ s'.rsp = s.rsp ++ [q] ∧ t'.rsp = t.rsp ++ [q] ∧
        s'.SameBinding t'

/-- R190: no response to a BIND tells anything of its key: two keys of 16 bytes, given to any two instances, get the same
response. -/
def Obligations.BindResponseHidesTheKey : Prop :=
  ∀ (s t : State) (a b : List Byte), a.length = 16 → b.length = 16 →
    ∃ s' t' q, exec (.bind a) s = .next s' ∧ exec (.bind b) t = .next t' ∧ s'.rsp = s.rsp ++ [q] ∧ t'.rsp = t.rsp ++ [q]

/-! ### The machine over time: `10_state.md`, `20_memory.md`, `70_reset_and_hazards.md` -/

/-- R21, R22: only a successful BIND and reset write `RK` and `KV`: a step that changes them took a reset, or a packet that
decodes to a BIND with a 16-byte key, and then `RK` holds that key's expansion. -/
def Obligations.OnlyBindAndResetWriteTheStore : Prop :=
  ∀ s t : State, step s = .next t → t.rk ≠ s.rk →
    (t.rk = none ∧ ∃ rest, s.cmd = .reset :: rest ∨ ∃ p, s.cmd = .resetDuring p :: rest) ∨
    ∃ p rest a k, s.cmd = .command p :: rest ∧ decode s.maxLen p = .ok (.bind a) ∧ blockOfBytes? a = some k ∧
      t.rk = some (keyExpansion k)

/-- R22, R35, R54: after any sequence of packets and resets, `KV` and `RK` are those of the last successful BIND since the last
reset, and of none if there was none. -/
def Obligations.BindingIsTheLastSuccessfulBind : Prop :=
  ∀ (events : List PortEvent) (s : State) (key : Option Block), s.cmd = events → s.rk = key.map keyExpansion →
    ∃ t, core.run events.length s = .next t ∧
      t.rk = (events.foldl (keyAfter s.maxLen) key).map keyExpansion

/-- The invariant holds after reset. -/
def Obligations.InvariantHoldsAtReset : Prop :=
  State.reset.Inv

/-- R29, R35, R76, R207: every step keeps the invariant, from every state that meets it: a bound store is the expansion of a
key, the buffers are empty between commands, and everything delivered on `RSP` is a response packet, without data unless
its status is OK. -/
def Obligations.EveryStepKeepsTheInvariant : Prop :=
  ∀ s t : State, s.Inv → step s = .next t → t.Inv

/-- R54, R70, R243: every command packet, well-formed or not, gets exactly one response, in the order of presentation: there
is one list of responses, as long as the list of packets, such that after `k` steps the first `k` packets have been taken
and the first `k` responses delivered, so that response `k` is the one that the step on packet `k` delivers; after the
last, CORE waits. -/
def Obligations.EveryPacketGetsOneResponse : Prop :=
  ∀ (packets : List Packet) (s : State), s.cmd = packets.map .command →
    ∃ responses : List Packet, responses.length = packets.length ∧ (∀ q ∈ responses, IsResponse q) ∧
      (∀ k, k ≤ packets.length → ∃ t, core.run k s = .next t ∧ t.cmd = (packets.drop k).map .command ∧
        t.rsp = s.rsp ++ responses.take k) ∧
      ∀ n, core.run (packets.length + n) s = core.run packets.length s

/-- R34: an instance makes its step from its own state alone, leaves every other instance as it is, and steps of two instances
commute. -/
def Obligations.InstancesAreIndependent : Prop :=
  (∀ (sys : System) (k : Nat) (s : State), sys.cores[k]? = some s →
    ∃ s' sys', step s = .next s' ∧ sys.stepInstance k = .next sys' ∧ sys'.cores[k]? = some s' ∧
      ∀ j, j ≠ k → sys'.cores[j]? = sys.cores[j]?) ∧
  ∀ (sys : System) (j k : Nat), j ≠ k →
    ∃ sysJ sysK both, sys.stepInstance j = .next sysJ ∧ sys.stepInstance k = .next sysK ∧
      sysJ.stepInstance k = .next both ∧ sysK.stepInstance j = .next both

/-! ### Written form of responses: `30_encoding.md` R84 -/

/-- R84: an OK response is written `OK` and its data as a run of hex pairs or `-`, and a failing one by the name of its
status alone. Of the forms of `<bytes>` the model writes lower-case hex pairs without spaces, its choice (log
entry 12). -/
def Obligations.ResponsesAreWritten : Prop :=
  (∀ data : List Byte, data.length < 2 ^ 32 → ∃ form : BytesForm, form.allowed = true ∧ form.bytes = data ∧
    writeResponse (responsePacket .ok data) = some (['O', 'K', ' '] ++ form.text)) ∧
  writeResponse (responsePacket (.failed .invalidKeyLength) []) = some "InvalidKeyLength".toList ∧
  writeResponse (responsePacket (.failed .invalidIvLength) []) = some "InvalidIvLength".toList ∧
  writeResponse (responsePacket (.failed .invalidCiphertextLength) []) = some "InvalidCiphertextLength".toList ∧
  writeResponse (responsePacket (.failed .paddingError) []) = some "PaddingError".toList ∧
  writeResponse (responsePacket (.failed .noKey) []) = some "NoKey".toList ∧
  writeResponse (responsePacket (.failed .badCommand) []) = some "BadCommand".toList
end

