-- ==== Sys2Proof/Laws/Bytes.lean ====
section
/-! SUPPORT. Exclusive-or of blocks, blocks as bytes and back, buffers as blocks, and the 32-bit lengths. -/

namespace Sys2Proof

@[simp] theorem Word.xor_xor_cancel (v w : Word) : (v.xor w).xor w = v := by
  cases v; cases w; simp [Word.xor]

@[simp] theorem Block.xor_xor_cancel (s t : Block) : (s.xor t).xor t = s := by
  cases s; cases t; simp [Block.xor]

theorem Word.xor_comm (v w : Word) : v.xor w = w.xor v := by
  simp [Word.xor, BitVec.xor_comm]

theorem Block.xor_comm (s t : Block) : s.xor t = t.xor s := by
  simp [Block.xor, Word.xor_comm]

theorem Word.xor_assoc (u v w : Word) : (u.xor v).xor w = u.xor (v.xor w) := by
  simp [Word.xor, BitVec.xor_assoc]

theorem Block.xor_assoc (r s t : Block) : (r.xor s).xor t = r.xor (s.xor t) := by
  simp [Block.xor, Word.xor_assoc]

/-- Exclusive-or with a fixed word loses nothing. -/
theorem Word.xor_right_inj {u v w : Word} (h : u.xor w = v.xor w) : u = v := by
  have := congrArg (·.xor w) h
  simpa using this

/-- Exclusive-or with a fixed block loses nothing. -/
theorem Block.xor_right_inj {r s t : Block} (h : r.xor t = s.xor t) : r = s := by
  have := congrArg (·.xor t) h
  simpa using this

/-- R73: a length below `2^32` is read back as it was written. -/
theorem beNat_beBytes (n : Nat) (h : n < 2 ^ 32) :
    beNat (BitVec.ofNat 8 (n / 2 ^ 24)) (BitVec.ofNat 8 (n / 2 ^ 16)) (BitVec.ofNat 8 (n / 2 ^ 8))
      (BitVec.ofNat 8 n) = n := by
  simp only [beNat, BitVec.toNat_ofNat]
  omega

/-- R73: four bytes are written back as they were read. -/
theorem beBytes_beNat (l3 l2 l1 l0 : Byte) : beBytes (beNat l3 l2 l1 l0) = [l3, l2, l1, l0] := by
  have h3 := l3.isLt
  have h2 := l2.isLt
  have h1 := l1.isLt
  have h0 := l0.isLt
  simp only [beBytes, beNat, List.cons.injEq, and_true]
  refine ⟨?_, ?_, ?_, ?_⟩ <;> apply BitVec.eq_of_toNat_eq <;> simp only [BitVec.toNat_ofNat] <;> omega

@[simp] theorem length_beBytes (n : Nat) : (beBytes n).length = 4 := rfl

theorem beNat_lt (l3 l2 l1 l0 : Byte) : beNat l3 l2 l1 l0 < 2 ^ 32 := by
  have h3 := l3.isLt
  have h2 := l2.isLt
  have h1 := l1.isLt
  have h0 := l0.isLt
  simp only [beNat]
  omega

namespace Machine

@[simp] theorem length_blockBytes (b : Block) : (blockBytes b).length = 16 := rfl

/-- Reading the sixteen bytes of a block gives the block. -/
@[simp] theorem blockOfBytes?_blockBytes (b : Block) : blockOfBytes? (blockBytes b) = some b := rfl

/-- R201, R202: the length test of the commands on a key and on an IV. -/
theorem blockOfBytes?_eq_none_iff (d : List Byte) : blockOfBytes? d = none ↔ d.length ≠ 16 := by
  unfold blockOfBytes?
  split
  · simp
  · rename_i h
    simp only [ne_eq, true_iff]
    intro hl
    match d, hl with
    | [x0, x1, x2, x3, x4, x5, x6, x7, x8, x9, x10, x11, x12, x13, x14, x15], _ => exact h _ _ _ _ _ _ _ _ _ _ _ _ _ _ _ _ rfl

/-- Sixteen bytes are a block, and the block's bytes are those. -/
theorem blockOfBytes?_of_length {d : List Byte} (h : d.length = 16) :
    ∃ b, blockOfBytes? d = some b ∧ blockBytes b = d := by
  match d, h with
  | [x0, x1, x2, x3, x4, x5, x6, x7, x8, x9, x10, x11, x12, x13, x14, x15], _ => exact ⟨_, rfl, rfl⟩

/-- A block read from bytes has those bytes. -/
theorem blockBytes_of_blockOfBytes? {d : List Byte} {b : Block} (h : blockOfBytes? d = some b) :
    blockBytes b = d := by
  have hl : d.length = 16 := by
    by_contra hne
    rw [(blockOfBytes?_eq_none_iff d).2 hne] at h
    cases h
  obtain ⟨b', hb, hbytes⟩ := blockOfBytes?_of_length hl
  rw [hb] at h
  cases h
  exact hbytes

theorem length_of_blockOfBytes? {d : List Byte} {b : Block} (h : blockOfBytes? d = some b) : d.length = 16 := by
  rw [← blockBytes_of_blockOfBytes? h, length_blockBytes]

@[simp] theorem blocksOf_nil : blocksOf [] = [] := by
  simp [blocksOf]

/-- The first block of a buffer that begins with a block's bytes. -/
@[simp] theorem blocksOf_blockBytes_append (b : Block) (d : List Byte) :
    blocksOf (blockBytes b ++ d) = b :: blocksOf d := by
  rw [show blockBytes b ++ d = b.c0.b0 :: b.c0.b1 :: b.c0.b2 :: b.c0.b3 :: b.c1.b0 :: b.c1.b1 :: b.c1.b2 :: b.c1.b3 ::
    b.c2.b0 :: b.c2.b1 :: b.c2.b2 :: b.c2.b3 :: b.c3.b0 :: b.c3.b1 :: b.c3.b2 :: b.c3.b3 :: d from rfl]
  simp [blocksOf]

@[simp] theorem bytesOf_nil : bytesOf [] = [] := rfl

@[simp] theorem bytesOf_cons (b : Block) (bs : List Block) : bytesOf (b :: bs) = blockBytes b ++ bytesOf bs := rfl

@[simp] theorem blocksOf_bytesOf (bs : List Block) : blocksOf (bytesOf bs) = bs := by
  induction bs with
  | nil => simp
  | cons b bs ih => simp [ih]

@[simp] theorem length_bytesOf (bs : List Block) : (bytesOf bs).length = 16 * bs.length := by
  induction bs with
  | nil => rfl
  | cons b bs ih => simp [ih]; omega

/-- A buffer whose length is a multiple of 16 is made of blocks. -/
theorem exists_bytesOf {d : List Byte} (h : d.length % 16 = 0) : ∃ bs, d = bytesOf bs := by
  induction hn : d.length / 16 generalizing d with
  | zero =>
    have : d.length = 0 := by omega
    exact ⟨[], by simpa using List.eq_nil_of_length_eq_zero this⟩
  | succ n ih =>
    have hl : (d.take 16).length = 16 := by simp; omega
    obtain ⟨b, -, hb⟩ := blockOfBytes?_of_length hl
    obtain ⟨bs, hbs⟩ := ih (d := d.drop 16) (by simp; omega) (by simp; omega)
    exact ⟨b :: bs, by rw [bytesOf_cons, hb, ← hbs, List.take_append_drop]⟩

theorem bytesOf_append (bs cs : List Block) : bytesOf (bs ++ cs) = bytesOf bs ++ bytesOf cs := by
  simp only [bytesOf, List.flatMap_append]

/-- The blocks of a buffer that begins with whole blocks. -/
theorem blocksOf_bytesOf_append (bs : List Block) (e : List Byte) :
    blocksOf (bytesOf bs ++ e) = bs ++ blocksOf e := by
  induction bs with
  | nil => rfl
  | cons b bs ih => simp [ih]

theorem bytesOf_take (bs : List Block) (n : Nat) : (bytesOf bs).take (16 * n) = bytesOf (bs.take n) := by
  induction bs generalizing n with
  | nil => simp
  | cons b bs ih =>
    cases n with
    | zero => simp
    | succ n =>
      rw [bytesOf_cons, List.take_append]
      simp [ih, Nat.mul_add]

theorem bytesOf_drop (bs : List Block) (n : Nat) : (bytesOf bs).drop (16 * n) = bytesOf (bs.drop n) := by
  have h : bytesOf (bs.take n) ++ (bytesOf bs).drop (16 * n) = bytesOf (bs.take n) ++ bytesOf (bs.drop n) := by
    rw [← bytesOf_take, List.take_append_drop, bytesOf_take, ← bytesOf_append, List.take_append_drop]
  exact List.append_cancel_left h

/-- R10: `block(d, i)` of a buffer made of blocks. -/
@[simp] theorem blockAt_bytesOf (bs : List Block) (i : Nat) : blockAt (bytesOf bs) i = bs[i]? := by
  induction bs generalizing i with
  | nil => simp [blockAt, Config.blockLen, blockOfBytes?]
  | cons b bs ih =>
    cases i with
    | zero =>
      have : (blockBytes b ++ bytesOf bs).take 16 = blockBytes b := List.take_left' (length_blockBytes b)
      simp [blockAt, Config.blockLen, this]
    | succ i =>
      have : (blockBytes b ++ bytesOf bs).drop (16 * (i + 1)) = (bytesOf bs).drop (16 * i) := by
        rw [show 16 * (i + 1) = (blockBytes b).length + 16 * i by rw [length_blockBytes]; omega, List.drop_length_add_append]
      have h := ih i
      simp only [blockAt, Config.blockLen, bytesOf_cons, this] at h ⊢
      simpa using h

end Machine

end Sys2Proof
end

