-- ==== Sys2Proof/Laws/Chain.lean ====
section
/-! SUPPORT. The two chains as loops over blocks (`42_cbc_chain.md` R150 to R155). -/

namespace Sys2Proof.Machine

@[simp] theorem length_chainEncryptBlocks (rk : RoundKeys) (ch : Block) (bs : List Block) :
    (chainEncryptBlocks rk ch bs).length = bs.length := by
  induction bs generalizing ch with
  | nil => rfl
  | cons b bs ih => simp [chainEncryptBlocks, ih]

@[simp] theorem length_chainDecryptBlocks (rk : RoundKeys) (ch : Block) (bs : List Block) :
    (chainDecryptBlocks rk ch bs).length = bs.length := by
  induction bs generalizing ch with
  | nil => rfl
  | cons b bs ih => simp [chainDecryptBlocks, ih]

/-- R151: a buffer of blocks goes through ChainEncrypt block by block. -/
@[simp] theorem chainEncrypt_bytesOf (bs : List Block) (iv : Block) (rk : RoundKeys) :
    chainEncrypt (bytesOf bs) iv rk = bytesOf (chainEncryptBlocks rk iv bs) := by
  simp [chainEncrypt]

/-- R154: a buffer of blocks goes through ChainDecrypt block by block. -/
@[simp] theorem chainDecrypt_bytesOf (bs : List Block) (iv : Block) (rk : RoundKeys) :
    chainDecrypt (bytesOf bs) iv rk = bytesOf (chainDecryptBlocks rk iv bs) := by
  simp [chainDecrypt]

/-- R150: ChainEncrypt returns a buffer of the same length. -/
theorem length_chainEncrypt {d : List Byte} (h : d.length % 16 = 0) (iv : Block) (rk : RoundKeys) :
    (chainEncrypt d iv rk).length = d.length := by
  obtain ⟨bs, rfl⟩ := exists_bytesOf h
  simp

/-- R150: ChainDecrypt returns a buffer of the same length. -/
theorem length_chainDecrypt {c : List Byte} (h : c.length % 16 = 0) (iv : Block) (rk : RoundKeys) :
    (chainDecrypt c iv rk).length = c.length := by
  obtain ⟨bs, rfl⟩ := exists_bytesOf h
  simp

end Sys2Proof.Machine
end

