-- ==== Sys2Proof/Laws/Field.lean ====
section
/-! SUPPORT. `xtime` is additive, so every constant multiplier is, and so is `gmul` in each argument. -/

namespace Sys2Proof.Machine

@[simp] theorem xtime_zero : xtime 0 = 0 := by decide

/-- Every field element is its own negative (R121). -/
theorem xor_cancel_left (x y : Byte) : x ^^^ (x ^^^ y) = y := by
  rw [← BitVec.xor_assoc, BitVec.xor_self, BitVec.zero_xor]

theorem xtime_xor (a b : Byte) : xtime (a ^^^ b) = xtime a ^^^ xtime b := by
  unfold xtime
  rw [BitVec.msb_xor, BitVec.shiftLeft_xor_distrib]
  cases ha : a.msb <;> cases hb : b.msb <;> simp
  · ac_rfl
  · ac_rfl
  · rw [show a <<< 1 ^^^ 27#8 ^^^ (b <<< 1 ^^^ 27#8) = 27#8 ^^^ (27#8 ^^^ (a <<< 1 ^^^ b <<< 1)) by ac_rfl,
      xor_cancel_left]

theorem mul02_xor (a b : Byte) : mul02 (a ^^^ b) = mul02 a ^^^ mul02 b := xtime_xor a b

theorem mul03_xor (a b : Byte) : mul03 (a ^^^ b) = mul03 a ^^^ mul03 b := by
  simp only [mul03, xtime_xor]
  ac_rfl

theorem mul09_xor (a b : Byte) : mul09 (a ^^^ b) = mul09 a ^^^ mul09 b := by
  simp only [mul09, xtime_xor]
  ac_rfl

theorem mul0b_xor (a b : Byte) : mul0b (a ^^^ b) = mul0b a ^^^ mul0b b := by
  simp only [mul0b, xtime_xor]
  ac_rfl

theorem mul0d_xor (a b : Byte) : mul0d (a ^^^ b) = mul0d a ^^^ mul0d b := by
  simp only [mul0d, xtime_xor]
  ac_rfl

theorem mul0e_xor (a b : Byte) : mul0e (a ^^^ b) = mul0e a ^^^ mul0e b := by
  simp only [mul0e, xtime_xor]
  ac_rfl

/-- The loop adds its products to what it starts with. -/
theorem gmulLoop_start (n : Nat) (a b r : Byte) : gmulLoop n a b r = r ^^^ gmulLoop n a b 0 := by
  induction n generalizing a b r with
  | zero => simp [gmulLoop]
  | succ n ih =>
    simp only [gmulLoop]
    rw [ih (xtime a) (b >>> 1) (if b.getLsbD 0 then r ^^^ a else r),
      ih (xtime a) (b >>> 1) (if b.getLsbD 0 then 0 ^^^ a else 0)]
    split <;> simp [BitVec.xor_assoc]

theorem gmulLoop_xor_left (n : Nat) (a a' b : Byte) :
    gmulLoop n (a ^^^ a') b 0 = gmulLoop n a b 0 ^^^ gmulLoop n a' b 0 := by
  induction n generalizing a a' b with
  | zero => simp [gmulLoop]
  | succ n ih =>
    simp only [gmulLoop, xtime_xor]
    rw [gmulLoop_start, gmulLoop_start n (xtime a), gmulLoop_start n (xtime a'), ih]
    cases b.getLsbD 0
    · simp
    · simp
      ac_rfl

theorem gmulLoop_xor_right (n : Nat) (a b b' : Byte) :
    gmulLoop n a (b ^^^ b') 0 = gmulLoop n a b 0 ^^^ gmulLoop n a b' 0 := by
  induction n generalizing a b b' with
  | zero => simp [gmulLoop]
  | succ n ih =>
    simp only [gmulLoop, BitVec.ushiftRight_xor_distrib, BitVec.getLsbD_xor]
    rw [gmulLoop_start, gmulLoop_start n _ (b >>> 1), gmulLoop_start n _ (b' >>> 1), ih]
    cases b.getLsbD 0 <;> cases b'.getLsbD 0 <;> simp
    · ac_rfl
    · ac_rfl
    · rw [show a ^^^ gmulLoop n (xtime a) (b >>> 1) 0#8 ^^^ (a ^^^ gmulLoop n (xtime a) (b' >>> 1) 0#8) =
        a ^^^ (a ^^^ (gmulLoop n (xtime a) (b >>> 1) 0#8 ^^^ gmulLoop n (xtime a) (b' >>> 1) 0#8)) by ac_rfl,
        xor_cancel_left]

/-- R123: `gmul` distributes over `xor` in its first argument. -/
theorem gmul_xor_left (a a' b : Byte) : gmul (a ^^^ a') b = gmul a b ^^^ gmul a' b :=
  gmulLoop_xor_left 8 a a' b

/-- R123: `gmul` distributes over `xor` in its second argument. -/
theorem gmul_xor_right (a b b' : Byte) : gmul a (b ^^^ b') = gmul a b ^^^ gmul a b' :=
  gmulLoop_xor_right 8 a b b'

/-- R121: a byte is the sum of the powers of `x` at its bits. -/
theorem byte_eq_sum (a : Byte) :
    (List.finRange 8).foldl (fun r i => r ^^^ (if a.getLsbD i.val then 1#8 <<< i.val else 0)) 0 = a := by
  have h : ∀ a : Byte,
      (List.finRange 8).foldl (fun r i => r ^^^ (if a.getLsbD i.val then 1#8 <<< i.val else 0)) 0 = a := by
    decide +kernel
  exact h a

/-- Two additive functions that agree on the eight powers of `x` agree everywhere. -/
theorem additive_ext {f g : Byte → Byte} (hf : ∀ x y, f (x ^^^ y) = f x ^^^ f y) (hg : ∀ x y, g (x ^^^ y) = g x ^^^ g y)
    (h : ∀ i : Fin 8, f (1#8 <<< i.val) = g (1#8 <<< i.val)) (a : Byte) : f a = g a := by
  have hf0 : f 0 = 0 := by simpa using hf 0 0
  have hg0 : g 0 = 0 := by simpa using hg 0 0
  have key : ∀ (l : List (Fin 8)) (r : Byte), f r = g r →
      f (l.foldl (fun r i => r ^^^ (if a.getLsbD i.val then 1#8 <<< i.val else 0)) r) =
        g (l.foldl (fun r i => r ^^^ (if a.getLsbD i.val then 1#8 <<< i.val else 0)) r) := by
    intro l
    induction l with
    | nil => exact fun r hr => hr
    | cons i l ih =>
      intro r hr
      apply ih
      rw [hf, hg, hr]
      split
      · rw [h i]
      · rw [hf0, hg0]
  rw [← byte_eq_sum a]
  exact key _ 0 (hf0.trans hg0.symm)

end Sys2Proof.Machine
end

