-- ==== Sys2Proof/Laws/Cipher.lean ====
section
/-! SUPPORT. Each step of the block transforms is undone by its mirror (`41_block_cipher.md` R125 to R131). -/

namespace Sys2Proof.Machine

/-- R44: `INVSBOX[SBOX[b]] = b`, checked over all 256 indices. -/
@[simp] theorem invSbox_sbox (b : Byte) : invSbox (sbox b) = b := by
  have h : ∀ b : Byte, invSbox (sbox b) = b := by decide +kernel
  exact h b

/-- R44: `SBOX[INVSBOX[b]] = b`, checked over all 256 indices. -/
@[simp] theorem sbox_invSbox (b : Byte) : sbox (invSbox b) = b := by
  have h : ∀ b : Byte, sbox (invSbox b) = b := by decide +kernel
  exact h b

@[simp] theorem addRoundKey_addRoundKey (s k : Block) : addRoundKey (addRoundKey s k) k = s := by
  simp [addRoundKey]

@[simp] theorem invSubBytes_subBytes (s : Block) : invSubBytes (subBytes s) = s := by
  simp [invSubBytes, subBytes, mapColumns, mapWord]

@[simp] theorem subBytes_invSubBytes (s : Block) : subBytes (invSubBytes s) = s := by
  simp [invSubBytes, subBytes, mapColumns, mapWord]

@[simp] theorem invShiftRows_shiftRows (s : Block) : invShiftRows (shiftRows s) = s := rfl

@[simp] theorem shiftRows_invShiftRows (s : Block) : shiftRows (invShiftRows s) = s := rfl

/-- R131: the sixteen products of coefficients that the inverse matrix times the matrix has, row by row, on one byte. -/
theorem mix_products (a : Byte) :
    mul0e (mul02 a) ^^^ mul0b a ^^^ mul0d a ^^^ mul09 (mul03 a) = a ∧
      mul0e (mul03 a) ^^^ mul0b (mul02 a) ^^^ mul0d a ^^^ mul09 a = 0 ∧
      mul0e a ^^^ mul0b (mul03 a) ^^^ mul0d (mul02 a) ^^^ mul09 a = 0 ∧
      mul0e a ^^^ mul0b a ^^^ mul0d (mul03 a) ^^^ mul09 (mul02 a) = 0 := by
  have h : ∀ a : Byte, mul0e (mul02 a) ^^^ mul0b a ^^^ mul0d a ^^^ mul09 (mul03 a) = a ∧
      mul0e (mul03 a) ^^^ mul0b (mul02 a) ^^^ mul0d a ^^^ mul09 a = 0 ∧
      mul0e a ^^^ mul0b (mul03 a) ^^^ mul0d (mul02 a) ^^^ mul09 a = 0 ∧
      mul0e a ^^^ mul0b a ^^^ mul0d (mul03 a) ^^^ mul09 (mul02 a) = 0 := by decide +kernel
  exact h a

/-- R131: the same with the matrix times its inverse. -/
theorem mix_products' (a : Byte) :
    mul02 (mul0e a) ^^^ mul03 (mul09 a) ^^^ mul0d a ^^^ mul0b a = a ∧
      mul02 (mul0b a) ^^^ mul03 (mul0e a) ^^^ mul09 a ^^^ mul0d a = 0 ∧
      mul02 (mul0d a) ^^^ mul03 (mul0b a) ^^^ mul0e a ^^^ mul09 a = 0 ∧
      mul02 (mul09 a) ^^^ mul03 (mul0d a) ^^^ mul0b a ^^^ mul0e a = 0 := by
  have h : ∀ a : Byte, mul02 (mul0e a) ^^^ mul03 (mul09 a) ^^^ mul0d a ^^^ mul0b a = a ∧
      mul02 (mul0b a) ^^^ mul03 (mul0e a) ^^^ mul09 a ^^^ mul0d a = 0 ∧
      mul02 (mul0d a) ^^^ mul03 (mul0b a) ^^^ mul0e a ^^^ mul09 a = 0 ∧
      mul02 (mul09 a) ^^^ mul03 (mul0d a) ^^^ mul0b a ^^^ mul0e a = 0 := by decide +kernel
  exact h a

/-- Four sums of four terms each, regrouped: the terms of one input byte come together. -/
theorem regroup {a b c d p0 p1 p2 p3 q0 q1 q2 q3 r0 r1 r2 r3 s0 s1 s2 s3 : Byte}
    (hp : p0 ^^^ p1 ^^^ p2 ^^^ p3 = a) (hq : q0 ^^^ q1 ^^^ q2 ^^^ q3 = b)
    (hr : r0 ^^^ r1 ^^^ r2 ^^^ r3 = c) (hs : s0 ^^^ s1 ^^^ s2 ^^^ s3 = d) :
    (p0 ^^^ q0 ^^^ r0 ^^^ s0) ^^^ (p1 ^^^ q1 ^^^ r1 ^^^ s1) ^^^ (p2 ^^^ q2 ^^^ r2 ^^^ s2) ^^^
      (p3 ^^^ q3 ^^^ r3 ^^^ s3) = a ^^^ b ^^^ c ^^^ d := by
  subst hp hq hr hs
  ac_rfl

/-- A fold is undone, up to `c`, by the fold over the reversed list whose steps undo its steps up to `c`. -/
theorem foldl_undo {α β : Type} (f g : α → β → α) (c : α → α) (h : ∀ a b, g (c (f a b)) b = c a) (l : List β) (a : α) :
    l.reverse.foldl g (c (l.foldl f a)) = c a := by
  induction l generalizing a with
  | nil => rfl
  | cons b l ih =>
    rw [List.reverse_cons, List.foldl_append, List.foldl_cons (f := f), ih (f a b)]
    exact h a b

end Sys2Proof.Machine
end

