-- ==== Sys2Proof/Laws/State.lean ====
section
/-! SUPPORT. What each update of the state leaves in each field, true by unfolding once. -/

namespace Sys2Proof.Machine

@[simp] theorem State.bindSchedule_rk (s : State) (w : RoundKeys) : (s.bindSchedule w).rk = some w := rfl
@[simp] theorem State.bindSchedule_st (s : State) (w : RoundKeys) : (s.bindSchedule w).st = s.st := rfl
@[simp] theorem State.bindSchedule_ch (s : State) (w : RoundKeys) : (s.bindSchedule w).ch = s.ch := rfl
@[simp] theorem State.bindSchedule_t (s : State) (w : RoundKeys) : (s.bindSchedule w).t = s.t := rfl
@[simp] theorem State.bindSchedule_bi (s : State) (w : RoundKeys) : (s.bindSchedule w).bi = s.bi := rfl
@[simp] theorem State.bindSchedule_ibuf (s : State) (w : RoundKeys) : (s.bindSchedule w).ibuf = s.ibuf := rfl
@[simp] theorem State.bindSchedule_obuf (s : State) (w : RoundKeys) : (s.bindSchedule w).obuf = s.obuf := rfl
@[simp] theorem State.bindSchedule_cmd (s : State) (w : RoundKeys) : (s.bindSchedule w).cmd = s.cmd := rfl
@[simp] theorem State.bindSchedule_rsp (s : State) (w : RoundKeys) : (s.bindSchedule w).rsp = s.rsp := rfl
@[simp] theorem State.bindSchedule_maxLen (s : State) (w : RoundKeys) : (s.bindSchedule w).maxLen = s.maxLen := rfl
@[simp] theorem State.bindSchedule_freeIx (s : State) (w : RoundKeys) : (s.bindSchedule w).freeIx = s.freeIx := rfl

@[simp] theorem State.dropSchedule_rk (s : State) : (s.dropSchedule).rk = none := rfl
@[simp] theorem State.dropSchedule_st (s : State) : (s.dropSchedule).st = s.st := rfl
@[simp] theorem State.dropSchedule_ch (s : State) : (s.dropSchedule).ch = s.ch := rfl
@[simp] theorem State.dropSchedule_t (s : State) : (s.dropSchedule).t = s.t := rfl
@[simp] theorem State.dropSchedule_bi (s : State) : (s.dropSchedule).bi = s.bi := rfl
@[simp] theorem State.dropSchedule_ibuf (s : State) : (s.dropSchedule).ibuf = s.ibuf := rfl
@[simp] theorem State.dropSchedule_obuf (s : State) : (s.dropSchedule).obuf = s.obuf := rfl
@[simp] theorem State.dropSchedule_cmd (s : State) : (s.dropSchedule).cmd = s.cmd := rfl
@[simp] theorem State.dropSchedule_rsp (s : State) : (s.dropSchedule).rsp = s.rsp := rfl
@[simp] theorem State.dropSchedule_maxLen (s : State) : (s.dropSchedule).maxLen = s.maxLen := rfl
@[simp] theorem State.dropSchedule_freeIx (s : State) : (s.dropSchedule).freeIx = s.freeIx := rfl

@[simp] theorem State.forgetWork_rk (s : State) : (s.forgetWork).rk = s.rk := rfl
@[simp] theorem State.forgetWork_st (s : State) : (s.forgetWork).st = Config.freeST s.freeIx := rfl
@[simp] theorem State.forgetWork_ch (s : State) : (s.forgetWork).ch = Config.freeCH s.freeIx := rfl
@[simp] theorem State.forgetWork_t (s : State) : (s.forgetWork).t = Config.freeT s.freeIx := rfl
@[simp] theorem State.forgetWork_bi (s : State) : (s.forgetWork).bi = Config.freeBI s.freeIx := rfl
@[simp] theorem State.forgetWork_ibuf (s : State) : (s.forgetWork).ibuf = s.ibuf := rfl
@[simp] theorem State.forgetWork_obuf (s : State) : (s.forgetWork).obuf = s.obuf := rfl
@[simp] theorem State.forgetWork_cmd (s : State) : (s.forgetWork).cmd = s.cmd := rfl
@[simp] theorem State.forgetWork_rsp (s : State) : (s.forgetWork).rsp = s.rsp := rfl
@[simp] theorem State.forgetWork_maxLen (s : State) : (s.forgetWork).maxLen = s.maxLen := rfl
@[simp] theorem State.forgetWork_freeIx (s : State) : (s.forgetWork).freeIx = s.freeIx + 1 := rfl

@[simp] theorem State.clearBuffers_rk (s : State) : (s.clearBuffers).rk = s.rk := rfl
@[simp] theorem State.clearBuffers_st (s : State) : (s.clearBuffers).st = s.st := rfl
@[simp] theorem State.clearBuffers_ch (s : State) : (s.clearBuffers).ch = s.ch := rfl
@[simp] theorem State.clearBuffers_t (s : State) : (s.clearBuffers).t = s.t := rfl
@[simp] theorem State.clearBuffers_bi (s : State) : (s.clearBuffers).bi = s.bi := rfl
@[simp] theorem State.clearBuffers_ibuf (s : State) : (s.clearBuffers).ibuf = [] := rfl
@[simp] theorem State.clearBuffers_obuf (s : State) : (s.clearBuffers).obuf = [] := rfl
@[simp] theorem State.clearBuffers_cmd (s : State) : (s.clearBuffers).cmd = s.cmd := rfl
@[simp] theorem State.clearBuffers_rsp (s : State) : (s.clearBuffers).rsp = s.rsp := rfl
@[simp] theorem State.clearBuffers_maxLen (s : State) : (s.clearBuffers).maxLen = s.maxLen := rfl
@[simp] theorem State.clearBuffers_freeIx (s : State) : (s.clearBuffers).freeIx = s.freeIx := rfl

@[simp] theorem State.takePacket_rk (s : State) (p : Packet) : (s.takePacket p).rk = s.rk := rfl
@[simp] theorem State.takePacket_st (s : State) (p : Packet) : (s.takePacket p).st = s.st := rfl
@[simp] theorem State.takePacket_ch (s : State) (p : Packet) : (s.takePacket p).ch = s.ch := rfl
@[simp] theorem State.takePacket_t (s : State) (p : Packet) : (s.takePacket p).t = s.t := rfl
@[simp] theorem State.takePacket_bi (s : State) (p : Packet) : (s.takePacket p).bi = s.bi := rfl
@[simp] theorem State.takePacket_ibuf (s : State) (p : Packet) : (s.takePacket p).ibuf = p.drop Config.headerLen := rfl
@[simp] theorem State.takePacket_obuf (s : State) (p : Packet) : (s.takePacket p).obuf = s.obuf := rfl
@[simp] theorem State.takePacket_cmd (s : State) (p : Packet) : (s.takePacket p).cmd = s.cmd.tail := rfl
@[simp] theorem State.takePacket_rsp (s : State) (p : Packet) : (s.takePacket p).rsp = s.rsp := rfl
@[simp] theorem State.takePacket_maxLen (s : State) (p : Packet) : (s.takePacket p).maxLen = s.maxLen := rfl
@[simp] theorem State.takePacket_freeIx (s : State) (p : Packet) : (s.takePacket p).freeIx = s.freeIx := rfl

@[simp] theorem State.fillObuf_rk (s : State) (d : List Byte) : (s.fillObuf d).rk = s.rk := rfl
@[simp] theorem State.fillObuf_st (s : State) (d : List Byte) : (s.fillObuf d).st = s.st := rfl
@[simp] theorem State.fillObuf_ch (s : State) (d : List Byte) : (s.fillObuf d).ch = s.ch := rfl
@[simp] theorem State.fillObuf_t (s : State) (d : List Byte) : (s.fillObuf d).t = s.t := rfl
@[simp] theorem State.fillObuf_bi (s : State) (d : List Byte) : (s.fillObuf d).bi = s.bi := rfl
@[simp] theorem State.fillObuf_ibuf (s : State) (d : List Byte) : (s.fillObuf d).ibuf = s.ibuf := rfl
@[simp] theorem State.fillObuf_obuf (s : State) (d : List Byte) : (s.fillObuf d).obuf = d := rfl
@[simp] theorem State.fillObuf_cmd (s : State) (d : List Byte) : (s.fillObuf d).cmd = s.cmd := rfl
@[simp] theorem State.fillObuf_rsp (s : State) (d : List Byte) : (s.fillObuf d).rsp = s.rsp := rfl
@[simp] theorem State.fillObuf_maxLen (s : State) (d : List Byte) : (s.fillObuf d).maxLen = s.maxLen := rfl
@[simp] theorem State.fillObuf_freeIx (s : State) (d : List Byte) : (s.fillObuf d).freeIx = s.freeIx := rfl

@[simp] theorem State.respond_rk (s : State) (st : Status) (d : List Byte) : (s.respond st d).rk = s.rk := rfl
@[simp] theorem State.respond_st (s : State) (st : Status) (d : List Byte) : (s.respond st d).st = Config.freeST s.freeIx := rfl
@[simp] theorem State.respond_ch (s : State) (st : Status) (d : List Byte) : (s.respond st d).ch = Config.freeCH s.freeIx := rfl
@[simp] theorem State.respond_t (s : State) (st : Status) (d : List Byte) : (s.respond st d).t = Config.freeT s.freeIx := rfl
@[simp] theorem State.respond_bi (s : State) (st : Status) (d : List Byte) : (s.respond st d).bi = Config.freeBI s.freeIx := rfl
@[simp] theorem State.respond_ibuf (s : State) (st : Status) (d : List Byte) : (s.respond st d).ibuf = [] := rfl
@[simp] theorem State.respond_obuf (s : State) (st : Status) (d : List Byte) : (s.respond st d).obuf = [] := rfl
@[simp] theorem State.respond_cmd (s : State) (st : Status) (d : List Byte) : (s.respond st d).cmd = s.cmd := rfl
@[simp] theorem State.respond_rsp (s : State) (st : Status) (d : List Byte) : (s.respond st d).rsp = s.rsp ++ [responsePacket st d] := rfl
@[simp] theorem State.respond_maxLen (s : State) (st : Status) (d : List Byte) : (s.respond st d).maxLen = s.maxLen := rfl
@[simp] theorem State.respond_freeIx (s : State) (st : Status) (d : List Byte) : (s.respond st d).freeIx = s.freeIx + 1 := rfl

@[simp] theorem State.respondObuf_rk (s : State) : (s.respondObuf).rk = s.rk := rfl
@[simp] theorem State.respondObuf_st (s : State) : (s.respondObuf).st = Config.freeST s.freeIx := rfl
@[simp] theorem State.respondObuf_ch (s : State) : (s.respondObuf).ch = Config.freeCH s.freeIx := rfl
@[simp] theorem State.respondObuf_t (s : State) : (s.respondObuf).t = Config.freeT s.freeIx := rfl
@[simp] theorem State.respondObuf_bi (s : State) : (s.respondObuf).bi = Config.freeBI s.freeIx := rfl
@[simp] theorem State.respondObuf_ibuf (s : State) : (s.respondObuf).ibuf = [] := rfl
@[simp] theorem State.respondObuf_obuf (s : State) : (s.respondObuf).obuf = [] := rfl
@[simp] theorem State.respondObuf_cmd (s : State) : (s.respondObuf).cmd = s.cmd := rfl
@[simp] theorem State.respondObuf_rsp (s : State) : (s.respondObuf).rsp = s.rsp ++ [responsePacket .ok s.obuf] := rfl
@[simp] theorem State.respondObuf_maxLen (s : State) : (s.respondObuf).maxLen = s.maxLen := rfl
@[simp] theorem State.respondObuf_freeIx (s : State) : (s.respondObuf).freeIx = s.freeIx + 1 := rfl

@[simp] theorem State.raise_rk (s : State) (f : Failure) : (s.raise f).rk = s.rk := rfl
@[simp] theorem State.raise_st (s : State) (f : Failure) : (s.raise f).st = Config.freeST s.freeIx := rfl
@[simp] theorem State.raise_ch (s : State) (f : Failure) : (s.raise f).ch = Config.freeCH s.freeIx := rfl
@[simp] theorem State.raise_t (s : State) (f : Failure) : (s.raise f).t = Config.freeT s.freeIx := rfl
@[simp] theorem State.raise_bi (s : State) (f : Failure) : (s.raise f).bi = Config.freeBI s.freeIx := rfl
@[simp] theorem State.raise_ibuf (s : State) (f : Failure) : (s.raise f).ibuf = [] := rfl
@[simp] theorem State.raise_obuf (s : State) (f : Failure) : (s.raise f).obuf = [] := rfl
@[simp] theorem State.raise_cmd (s : State) (f : Failure) : (s.raise f).cmd = s.cmd := rfl
@[simp] theorem State.raise_rsp (s : State) (f : Failure) : (s.raise f).rsp = s.rsp ++ [responsePacket (.failed f) []] := rfl
@[simp] theorem State.raise_maxLen (s : State) (f : Failure) : (s.raise f).maxLen = s.maxLen := rfl
@[simp] theorem State.raise_freeIx (s : State) (f : Failure) : (s.raise f).freeIx = s.freeIx + 1 := rfl

@[simp] theorem State.applyReset_rk (s : State) : (s.applyReset).rk = none := rfl
@[simp] theorem State.applyReset_st (s : State) : (s.applyReset).st = Config.freeST s.freeIx := rfl
@[simp] theorem State.applyReset_ch (s : State) : (s.applyReset).ch = Config.freeCH s.freeIx := rfl
@[simp] theorem State.applyReset_t (s : State) : (s.applyReset).t = Config.freeT s.freeIx := rfl
@[simp] theorem State.applyReset_bi (s : State) : (s.applyReset).bi = Config.freeBI s.freeIx := rfl
@[simp] theorem State.applyReset_ibuf (s : State) : (s.applyReset).ibuf = [] := rfl
@[simp] theorem State.applyReset_obuf (s : State) : (s.applyReset).obuf = [] := rfl
@[simp] theorem State.applyReset_cmd (s : State) : (s.applyReset).cmd = s.cmd.tail := rfl
@[simp] theorem State.applyReset_rsp (s : State) : (s.applyReset).rsp = s.rsp := rfl
@[simp] theorem State.applyReset_maxLen (s : State) : (s.applyReset).maxLen = s.maxLen := rfl
@[simp] theorem State.applyReset_freeIx (s : State) : (s.applyReset).freeIx = s.freeIx + 1 := rfl

end Sys2Proof.Machine
end

