-- ==== Sys2Proof/Laws/Commands.lean ====
section
/-! SUPPORT. Everything a command can do, said once for each, and everything one step can do. -/

namespace Sys2Proof.Machine

/-- A command that only responds keeps the binding. -/
theorem State.keepsBinding_respond (s : State) (st : Status) (d : List Byte) : s.KeepsBinding (s.respond st d) :=
  ⟨rfl, rfl, rfl, rfl, rfl⟩

/-- `raise` is a response without data that keeps the binding. -/
theorem responds_raise (s : State) (f : Failure) : Responds s (.next (s.raise f)) (.failed f) [] :=
  ⟨_, rfl, rfl, s.keepsBinding_respond _ _⟩

/-- Responding OK with a filled `OBUF` keeps the binding. -/
theorem responds_obuf (s : State) (d : List Byte) : Responds s (.next (s.fillObuf d).respondObuf) .ok d :=
  ⟨_, rfl, rfl, ⟨rfl, rfl, rfl, rfl, rfl⟩⟩

/-- R181: the two things BIND can do. -/
theorem execBind_cases (a : List Byte) (s : State) :
    (blockOfBytes? a = none ∧ exec (.bind a) s = .next (s.raise .invalidKeyLength)) ∨
      ∃ k, blockOfBytes? a = some k ∧
        exec (.bind a) s = .next ((s.bindSchedule (keyExpansion k)).respond .ok []) := by
  cases h : blockOfBytes? a with
  | none => exact .inl ⟨rfl, by simp [exec, execBind, h]⟩
  | some k => exact .inr ⟨k, rfl, by simp [exec, execBind, h]⟩

/-- R184: the three things CBCENC can do. -/
theorem execCbcenc_cases (a data : List Byte) (s : State) :
    (s.rk = none ∧ exec (.cbcenc a data) s = .next (s.raise .noKey)) ∨
      (∃ w, s.rk = some w ∧ blockOfBytes? a = none ∧
        exec (.cbcenc a data) s = .next (s.raise .invalidIvLength)) ∨
      ∃ w iv, s.rk = some w ∧ blockOfBytes? a = some iv ∧
        exec (.cbcenc a data) s = .next (s.fillObuf (chainEncrypt (pad data) iv w)).respondObuf := by
  cases hw : s.rk with
  | none => exact .inl ⟨rfl, by simp [exec, execCbcenc, hw]⟩
  | some w =>
    cases h : blockOfBytes? a with
    | none => exact .inr (.inl ⟨w, rfl, rfl, by simp [exec, execCbcenc, hw, h]⟩)
    | some iv => exact .inr (.inr ⟨w, iv, rfl, rfl, by simp [exec, execCbcenc, hw, h]⟩)

/-- R187: the five things CBCDEC can do. -/
theorem execCbcdec_cases (a data : List Byte) (s : State) :
    (s.rk = none ∧ exec (.cbcdec a data) s = .next (s.raise .noKey)) ∨
      (∃ w, s.rk = some w ∧ blockOfBytes? a = none ∧
        exec (.cbcdec a data) s = .next (s.raise .invalidIvLength)) ∨
      (∃ w iv, s.rk = some w ∧ blockOfBytes? a = some iv ∧ (data.length = 0 ∨ data.length % 16 ≠ 0) ∧
        exec (.cbcdec a data) s = .next (s.raise .invalidCiphertextLength)) ∨
      (∃ w iv, s.rk = some w ∧ blockOfBytes? a = some iv ∧ ¬(data.length = 0 ∨ data.length % 16 ≠ 0) ∧
        unpad (chainDecrypt data iv w) = none ∧ exec (.cbcdec a data) s = .next (s.raise .paddingError)) ∨
      ∃ w iv plain, s.rk = some w ∧ blockOfBytes? a = some iv ∧ ¬(data.length = 0 ∨ data.length % 16 ≠ 0) ∧
        unpad (chainDecrypt data iv w) = some plain ∧
        exec (.cbcdec a data) s = .next (s.fillObuf plain).respondObuf := by
  cases hw : s.rk with
  | none => exact .inl ⟨rfl, by simp [exec, execCbcdec, hw]⟩
  | some w =>
    cases h : blockOfBytes? a with
    | none => exact .inr (.inl ⟨w, rfl, rfl, by simp [exec, execCbcdec, hw, h]⟩)
    | some iv =>
      by_cases hl : data.length = 0 ∨ data.length % 16 ≠ 0
      · refine .inr (.inr (.inl ⟨w, iv, rfl, rfl, hl, ?_⟩))
        simp only [exec, execCbcdec, hw, h, Config.blockLen]
        rw [if_pos hl]
      · cases hu : unpad (chainDecrypt data iv w) with
        | none =>
          refine .inr (.inr (.inr (.inl ⟨w, iv, rfl, rfl, hl, hu, ?_⟩)))
          simp only [exec, execCbcdec, hw, h, Config.blockLen, hu]
          rw [if_neg hl]
        | some plain =>
          refine .inr (.inr (.inr (.inr ⟨w, iv, plain, rfl, rfl, hl, hu, ?_⟩)))
          simp only [exec, execCbcdec, hw, h, Config.blockLen, hu]
          rw [if_neg hl]

/-- The packet that a step takes is decoded as R79 decodes it. -/
@[simp] theorem State.decodeTaken_takePacket (s : State) (p : Packet) :
    (s.takePacket p).decodeTaken p = decode s.maxLen p := rfl

/-- The five things a step can do, by what stands first at the ports. -/
theorem step_cases (s : State) :
    (s.cmd = [] ∧ step s = .next s) ∨
      (∃ rest, s.cmd = .reset :: rest ∧ step s = .next s.applyReset) ∨
      (∃ p rest, s.cmd = .resetDuring p :: rest ∧ step s = .next s.applyReset) ∨
      (∃ p rest r, s.cmd = .command p :: rest ∧ decode s.maxLen p = .error r ∧
        step s = .next ((s.takePacket p).raise .badCommand)) ∨
      ∃ p rest i, s.cmd = .command p :: rest ∧ decode s.maxLen p = .ok i ∧ step s = exec i (s.takePacket p) := by
  match h : s.cmd with
  | [] => exact .inl ⟨rfl, by simp [step, h]⟩
  | .reset :: rest => exact .inr (.inl ⟨rest, rfl, by simp [step, h]⟩)
  | .resetDuring p :: rest => exact .inr (.inr (.inl ⟨p, rest, rfl, by simp [step, h]⟩))
  | .command p :: rest =>
    cases hd : decode s.maxLen p with
    | error r => exact .inr (.inr (.inr (.inl ⟨p, rest, r, rfl, hd, by simp [step, h, hd]⟩)))
    | ok i => exact .inr (.inr (.inr (.inr ⟨p, rest, i, rfl, hd, by simp [step, h, hd]⟩)))

end Sys2Proof.Machine
end

