-- ==== Sys2Proof/Laws/Decode.lean ====
section
/-! SUPPORT. What the decoder and the encoder do, said once. -/

namespace Sys2Proof

@[simp] theorem Opcode.ofCode?_code (op : Opcode) : Opcode.ofCode? op.code = some op := by
  cases op <;> rfl

/-- R75: an opcode value that selects a command is that command's. -/
theorem Opcode.code_of_ofCode? {opc : Byte} {op : Opcode} (h : Opcode.ofCode? opc = some op) : op.code = opc := by
  unfold Opcode.ofCode? at h
  split at h
  · cases h; simp_all [Opcode.code]
  · split at h
    · cases h; simp_all [Opcode.code]
    · split at h
      · cases h; simp_all [Opcode.code]
      · cases h

/-- R80: every value but three is reserved. -/
theorem Opcode.ofCode?_eq_none_iff (opc : Byte) :
    Opcode.ofCode? opc = none ↔ opc ≠ 0x01 ∧ opc ≠ 0x02 ∧ opc ≠ 0x03 := by
  unfold Opcode.ofCode?
  split <;> [simp_all; (split <;> [simp_all; (split <;> simp_all)])]

/-- The decoder on a packet that has a whole header. -/
theorem decode_header (maxLen : Nat) (opc alen l3 l2 l1 l0 : Byte) (body : List Byte) :
    decode maxLen (opc :: alen :: l3 :: l2 :: l1 :: l0 :: body) =
      match Opcode.ofCode? opc with
      | none => .error .reservedOpcode
      | some op =>
        if body.length ≠ alen.toNat + beNat l3 l2 l1 l0 then .error .lengthMismatch
        else if op.dataLimit maxLen < beNat l3 l2 l1 l0 then .error op.overLimit
        else .ok (op.command (body.take alen.toNat) (body.drop alen.toNat)) := rfl

/-- A packet of six bytes or more has a whole header. -/
theorem exists_header {p : Packet} (h : 6 ≤ p.length) :
    ∃ opc alen l3 l2 l1 l0 body, p = opc :: alen :: l3 :: l2 :: l1 :: l0 :: body := by
  match p, h with
  | opc :: alen :: l3 :: l2 :: l1 :: l0 :: body, _ => exact ⟨opc, alen, l3, l2, l1, l0, body, rfl⟩

/-- R81: a packet shorter than the header is malformed. -/
theorem decode_short (maxLen : Nat) {p : Packet} (h : p.length < 6) : decode maxLen p = .error .shortHeader := by
  match p, h with
  | [], _ => rfl
  | [_], _ => rfl
  | [_, _], _ => rfl
  | [_, _, _], _ => rfl
  | [_, _, _, _], _ => rfl
  | [_, _, _, _, _], _ => rfl

/-- R79: everything a decoded packet tells: its header, that its lengths agree, and that its data are within the limit. -/
theorem decode_eq_ok {maxLen : Nat} {p : Packet} {i : Instr} (h : decode maxLen p = .ok i) :
    ∃ op alen l3 l2 l1 l0 body, p = Opcode.code op :: alen :: l3 :: l2 :: l1 :: l0 :: body ∧
      body.length = alen.toNat + beNat l3 l2 l1 l0 ∧ beNat l3 l2 l1 l0 ≤ op.dataLimit maxLen ∧
      i = op.command (body.take alen.toNat) (body.drop alen.toNat) := by
  by_cases hs : p.length < 6
  · rw [decode_short maxLen hs] at h
    cases h
  · obtain ⟨opc, alen, l3, l2, l1, l0, body, rfl⟩ := exists_header (Nat.le_of_not_lt hs)
    rw [decode_header] at h
    split at h
    · cases h
    · rename_i op hop
      split at h
      · cases h
      · rename_i hlen
        split at h
        · cases h
        · rename_i hlim
          cases h
          exact ⟨op, alen, l3, l2, l1, l0, body, by rw [Opcode.code_of_ofCode? hop],
            by simpa using hlen, Nat.le_of_not_lt hlim, rfl⟩

/-- R71: the length of a command's packet. -/
theorem length_encode (i : Instr) : (encode i).length = 6 + i.operandA.length + i.operandData.length := by
  simp [encode]
  omega

/-- R74: the limit of `Instr.wellFormed` is the decoder's. -/
theorem wellFormed_iff (maxLen : Nat) (i : Instr) :
    i.wellFormed maxLen = true ↔
      i.operandA.length ≤ 255 ∧ i.operandData.length ≤ i.opcode.dataLimit maxLen := by
  unfold Instr.wellFormed Instr.fitsALen
  rw [Bool.and_eq_true, decide_eq_true_iff]
  cases i <;> simp [Instr.fitsDLen, Instr.operandData, Instr.opcode, Opcode.dataLimit]

/-- The opcode of a command and its two operands are the command. -/
theorem Instr.command_opcode (i : Instr) : i.opcode.command i.operandA i.operandData = i := by
  cases i <;> rfl

/-- What an opcode makes of its operands has them back; BIND has no data. -/
theorem Opcode.command_fields (op : Opcode) (a data : List Byte) (h : op = .bind → data = []) :
    (op.command a data).opcode = op ∧ (op.command a data).operandA = a ∧ (op.command a data).operandData = data := by
  cases op <;> simp_all [Opcode.command, Instr.opcode, Instr.operandA, Instr.operandData]

/-- R74: no limit exceeds what `DLEN` can carry. -/
theorem Opcode.dataLimit_lt (m : MaxLen) (op : Opcode) : op.dataLimit m < 2 ^ 32 := by
  have := m.isLt
  cases op <;> simp only [Opcode.dataLimit, Config.maxLenCap] at * <;> omega

/-- The table packet of a header word with `DLEN` 0 and `ALEN` 0 is its six bytes. -/
theorem tableBytes_length (n w : Nat) : (tableBytes n w).length = n := by
  induction n generalizing w with
  | zero => rfl
  | succ n ih => simp [tableBytes, ih]

end Sys2Proof
end

