-- ==== Sys2Proof/Laws/KeySchedule.lean ====
section
/-! SUPPORT. The words of the schedule one by one (`40_key_schedule.md` R104). -/

namespace Sys2Proof.Machine

/-- Expanding further leaves the words that are there. -/
theorem scheduleWords_getElem_succ (k : Block) (n : Nat) (h : n + 1 ≤ 40) (i : Nat) (hi : i < 4 + n) :
    (scheduleWords k (n + 1) h)[i]'(by omega) = (scheduleWords k n (by omega))[i] := by
  simp only [scheduleWords]
  exact Vector.getElem_push_lt hi

/-- The word that one more pass of the loop makes. -/
theorem scheduleWords_getElem_last (k : Block) (n : Nat) (h : n + 1 ≤ 40) :
    (scheduleWords k (n + 1) h)[4 + n]'(by omega) =
      ((scheduleWords k n (by omega))[n]'(by omega)).xor
        (scheduleTemp ⟨n, by omega⟩ ((scheduleWords k n (by omega))[3 + n]'(by omega))) := by
  simp only [scheduleWords]
  exact Vector.getElem_push_eq

/-- Two runs of the loop agree on the words both have. -/
theorem scheduleWords_getElem_of_le (k : Block) {m n : Nat} (hmn : m ≤ n) (hn : n ≤ 40) (i : Nat) (hi : i < 4 + m) :
    (scheduleWords k n hn)[i]'(by omega) = (scheduleWords k m (by omega))[i] := by
  induction n, hmn using Nat.le_induction with
  | base => rfl
  | succ n hmn ih => rw [scheduleWords_getElem_succ k n hn i (by omega), ih (by omega)]

/-- R104: word `4 + n` of the schedule, from the words `n` and `3 + n`. -/
theorem keyExpansion_getElem (k : Block) (n : Nat) (h : n < 40) :
    (keyExpansion k)[4 + n]'(by omega) =
      ((keyExpansion k)[n]'(by omega)).xor (scheduleTemp ⟨n, h⟩ ((keyExpansion k)[3 + n]'(by omega))) := by
  unfold keyExpansion
  rw [scheduleWords_getElem_of_le k (show n + 1 ≤ 40 from h) (Nat.le_refl 40) (4 + n) (by omega),
    scheduleWords_getElem_last k n h,
    scheduleWords_getElem_of_le k (show n ≤ 40 by omega) (Nat.le_refl 40) n (by omega),
    scheduleWords_getElem_of_le k (show n ≤ 40 by omega) (Nat.le_refl 40) (3 + n) (by omega)]

/-- R48: the first four words are the columns of the key. -/
theorem keyExpansion_first (k : Block) :
    (keyExpansion k)[0] = k.c0 ∧ (keyExpansion k)[1] = k.c1 ∧ (keyExpansion k)[2] = k.c2 ∧
      (keyExpansion k)[3] = k.c3 := by
  unfold keyExpansion
  refine ⟨?_, ?_, ?_, ?_⟩ <;>
    (rw [scheduleWords_getElem_of_le k (Nat.zero_le 40) (Nat.le_refl 40) _ (by omega)]; rfl)

end Sys2Proof.Machine
end

