-- ==== Sys2Proof/Laws/Padding.lean ====
section
/-! SUPPORT. What Pad and Unpad do (`43_padding.md` R166 to R168). -/

namespace Sys2Proof.Machine

/-- R166: `p` is always in 1..16, never 0. -/
theorem padLength_bounds (len : Nat) : 1 ≤ padLength len ∧ padLength len ≤ 16 := by
  simp only [padLength, Config.blockLen]
  omega

/-- R167. -/
theorem length_pad (d : List Byte) : (pad d).length = d.length + padLength d.length := by
  simp [pad]

/-- R167: the padded length is a multiple of 16. -/
theorem length_pad_mod (d : List Byte) : (pad d).length % 16 = 0 := by
  rw [length_pad]
  simp only [padLength, Config.blockLen]
  omega

/-- R168: a buffer that ends in `p` bytes of value `p`, with `p` in 1..16, unpads to what stands before them. -/
theorem unpad_append (m : List Byte) (p : Nat) (h1 : 1 ≤ p) (h2 : p ≤ 16) :
    unpad (m ++ List.replicate p (BitVec.ofNat 8 p)) = some m := by
  have hlast : (m ++ List.replicate p (BitVec.ofNat 8 p)).getLast? = some (BitVec.ofNat 8 p) := by
    rw [List.getLast?_append, List.getLast?_replicate, if_neg (by omega)]
    rfl
  have hp : (BitVec.ofNat 8 p).toNat = p := by
    rw [BitVec.toNat_ofNat]
    omega
  simp only [unpad, hlast, hp, Config.blockLen]
  rw [if_neg (by omega), if_neg (by simp), if_pos, List.length_append, List.length_replicate,
    Nat.add_sub_cancel, List.take_left]
  rw [List.length_append, List.length_replicate, Nat.add_sub_cancel, List.drop_left]
  simp

/-- R168: a buffer that unpads ends in `p` bytes of value `p`, with `p` in 1..16, after what it unpads to. -/
theorem unpad_eq_some {d m : List Byte} (h : unpad d = some m) :
    ∃ p, 1 ≤ p ∧ p ≤ 16 ∧ d = m ++ List.replicate p (BitVec.ofNat 8 p) := by
  unfold unpad at h
  split at h
  · cases h
  · rename_i last hlast
    simp only [Config.blockLen] at h
    split at h
    · cases h
    · rename_i hrange
      split at h
      · cases h
      · rename_i hfit
        split at h
        · rename_i hall
          cases h
          refine ⟨last.toNat, by omega, by omega, ?_⟩
          have hrep : d.drop (d.length - last.toNat) = List.replicate last.toNat last := by
            rw [List.eq_replicate_iff]
            refine ⟨by simp; omega, ?_⟩
            simpa using hall
          rw [BitVec.ofNat_toNat, BitVec.setWidth_eq, ← hrep, List.take_append_drop]
        · cases h

end Sys2Proof.Machine
end

