-- ==== Sys2Proof/Laws/PerInstr.lean ====
section
/-! SUPPORT. What holds of every command as syntax, one lemma for each constructor. -/

namespace Sys2Proof.Laws.PacketShape

/-- R71, R75: the packet of a command begins with its opcode, and its length is `6 + ALEN + DLEN`. -/
def Statement (i : Instr) : Prop :=
  (encode i).head? = some i.opcode.code ∧ (encode i).length = 6 + i.operandA.length + i.operandData.length

theorem bind (a : List Byte) : Statement (.bind a) :=
  ⟨rfl, length_encode _⟩

theorem cbcenc (a data : List Byte) : Statement (.cbcenc a data) :=
  ⟨rfl, length_encode _⟩

theorem cbcdec (a data : List Byte) : Statement (.cbcdec a data) :=
  ⟨rfl, length_encode _⟩

end Sys2Proof.Laws.PacketShape
end

