-- ==== Sys2Proof/Laws/Response.lean ====
section
/-! SUPPORT. Status codes and response packets (`30_encoding.md` R76, R77). -/

namespace Sys2Proof.Machine

@[simp] theorem Status.ofCode?_code (st : Status) : Status.ofCode? st.code = some st := by
  cases st with
  | ok => rfl
  | failed f => cases f <;> rfl

/-- R76: the total length of a response packet is `5 + RLEN`. -/
theorem length_responsePacket (st : Status) (d : List Byte) : (responsePacket st d).length = 5 + d.length := by
  simp [responsePacket]
  omega

/-- R207: the response to a failing command is its status and four zero bytes of length. -/
theorem responsePacket_failed (f : Failure) : responsePacket (.failed f) [] = [f.code, 0x00, 0x00, 0x00, 0x00] := rfl

end Sys2Proof.Machine
end

