-- ==== Sys2Proof/Laws/Run.lean ====
section
/-! SUPPORT. Running the machine several steps (`70_reset_and_hazards.md` R243). -/

namespace Sys2Proof.Machine

theorem core_run_zero (s : State) : core.run 0 s = .next s := rfl

/-- A run whose first step ends in a next state goes on from there. -/
theorem core_run_succ {s t : State} (h : step s = .next t) (n : Nat) : core.run (n + 1) s = core.run n t := by
  have e := Host.Core.run.eq_2 core s n
  have hs : core.step s = .next t := h
  rw [hs] at e
  exact e

end Sys2Proof.Machine
end

