-- ==== Sys2Proof/Laws/Written.lean ====
section
/-! SUPPORT. What the readers of the written form make of the text they are for (`30_encoding.md` R84). -/

namespace Sys2Proof.Machine

theorem hexDigit?_hexDigit {n : Nat} (h : n < 16) : hexDigit? (hexDigit n) = some n := by
  have all : ∀ k : Fin 16, hexDigit? (hexDigit k.val) = some k.val := by decide
  exact all ⟨n, h⟩

theorem hexDigit_ne {n : Nat} (h : n < 16) : hexDigit n ≠ ' ' ∧ hexDigit n ≠ 't' ∧ hexDigit n ≠ '-' ∧ hexDigit n ≠ quoteChar := by
  have all : ∀ k : Fin 16, hexDigit k.val ≠ ' ' ∧ hexDigit k.val ≠ 't' ∧ hexDigit k.val ≠ '-' ∧ hexDigit k.val ≠ quoteChar := by
    decide
  exact all ⟨n, h⟩

@[simp] theorem afterPrefix_append (pre line : List Char) : afterPrefix pre (pre ++ line) = some line := by
  induction pre with
  | nil => rfl
  | cons c cs ih => simp [afterPrefix, ih]

@[simp] theorem skipSpaces_replicate (n : Nat) (line : List Char) :
    skipSpaces (List.replicate n ' ' ++ line) = skipSpaces line := by
  induction n with
  | zero => rfl
  | succ n ih => simpa [List.replicate_succ, skipSpaces] using ih

/-- A line ends where only spaces or a comment follow. -/
theorem endsLine_of_skipSpaces {rest : List Char} {comment : Option (List Char)}
    (h : skipSpaces rest = skipSpaces (commentText comment)) : endsLine rest = true := by
  unfold endsLine
  rw [h]
  cases comment <;> simp [skipSpaces, commentText]

/-- A string is read up to its closing quote. -/
theorem readQuoted_append (chars rest : List Char)
    (h : (BytesForm.quoted chars).allowed = true) :
    readQuoted (chars ++ quoteChar :: rest) = some ((BytesForm.quoted chars).bytes, rest) := by
  induction chars with
  | nil => simp [readQuoted, BytesForm.bytes]
  | cons c cs ih =>
    simp only [BytesForm.allowed, List.all_cons, Bool.and_eq_true, decide_eq_true_eq] at h ih
    simp [readQuoted, h.1.1, h.1.2, ih h.2, BytesForm.bytes]

/-- What follows an operand on its line: spaces, and then nothing, a comment or the operand `data=`. -/
def EndsRun (tail : List Char) : Prop :=
  tail = [] ∨ (∃ text, tail = ';' :: text) ∨ ∃ more, tail = ['d', 'a', 't', 'a', '='] ++ more

theorem endsRun_commentText (comment : Option (List Char)) : EndsRun (commentText comment) := by
  cases comment with
  | none => exact .inl rfl
  | some text => exact .inr (.inl ⟨text, rfl⟩)

/-- Nothing of what follows a run of hex pairs is read as a byte. -/
theorem readHex_end (n : Nat) {tail : List Char} (h : EndsRun tail) :
    ∃ r, readHex (List.replicate n ' ' ++ tail) = ([], r) ∧ skipSpaces r = skipSpaces tail := by
  induction n with
  | zero =>
    obtain rfl | ⟨text, rfl⟩ | ⟨more, rfl⟩ := h
    · exact ⟨[], rfl, rfl⟩
    · cases text with
      | nil => exact ⟨_, rfl, rfl⟩
      | cons d ds => exact ⟨_, by simp [readHex, afterPrefix, show hexDigit? ';' = none by decide], rfl⟩
    · exact ⟨_, by simp [readHex, afterPrefix], rfl⟩
  | succ n ih =>
    obtain ⟨r, hr, hs⟩ := ih
    rw [List.replicate_succ, List.cons_append]
    cases ht : List.replicate n ' ' ++ tail with
    | nil =>
      obtain ⟨-, rfl⟩ := List.append_eq_nil_iff.1 ht
      exact ⟨[' '], rfl, rfl⟩
    | cons d ds =>
      rw [ht] at hr
      exact ⟨r, by rw [readHex]; simpa using hr, hs⟩

/-- Spaces before a pair are passed over. -/
theorem readHex_spaces (n : Nat) (c d : Char) (rest : List Char) :
    readHex (List.replicate n ' ' ++ c :: d :: rest) = readHex (c :: d :: rest) := by
  induction n with
  | zero => rfl
  | succ n ih =>
    rw [List.replicate_succ, List.cons_append]
    cases ht : List.replicate n ' ' ++ c :: d :: rest with
    | nil => simp at ht
    | cons x xs =>
      rw [ht] at ih
      rw [readHex]
      simpa using ih

/-- A pair of hex digits is its byte, unless the operand `data=` begins there. -/
theorem readHex_pair (b : Byte) (rest : List Char) (h : rest.head? ≠ some 't') :
    readHex (hexPair b ++ rest) = (b :: (readHex rest).1, (readHex rest).2) := by
  have hb := b.isLt
  have h1 : b.toNat / 16 < 16 := by omega
  have h2 : b.toNat % 16 < 16 := Nat.mod_lt _ (by omega)
  have hp : afterPrefix ['d', 'a', 't', 'a', '='] (hexDigit (b.toNat / 16) :: hexDigit (b.toNat % 16) :: rest) = none := by
    cases rest with
    | nil => simp [afterPrefix]
    | cons x xs =>
      have : ('t' : Char) ≠ x := fun e => h (by simp [← e])
      simp [afterPrefix, this]
  have hv : BitVec.ofNat 8 (16 * (b.toNat / 16) + b.toNat % 16) = b := by
    rw [Nat.div_add_mod]; simp
  simp only [hexPair, List.cons_append, List.nil_append]
  rw [readHex]
  simp [(hexDigit_ne h1).1, hp, hexDigit?_hexDigit h1, hexDigit?_hexDigit h2, hv]

/-- The text of a run, and what follows it, never begins with a `t`. -/
theorem head_hexRunText (pairs : List (Nat × Byte)) (n : Nat) {tail : List Char} (h : EndsRun tail) :
    (hexRunText pairs ++ (List.replicate n ' ' ++ tail)).head? ≠ some 't' := by
  cases pairs with
  | nil =>
    cases n with
    | zero => obtain rfl | ⟨text, rfl⟩ | ⟨more, rfl⟩ := h <;> simp [hexRunText]
    | succ n => simp [hexRunText, List.replicate_succ]
  | cons r rs =>
    obtain ⟨k, b⟩ := r
    cases k with
    | zero =>
      have hb := b.isLt
      simpa [hexRunText, hexPair] using (hexDigit_ne (show b.toNat / 16 < 16 by omega)).2.1
    | succ k => simp [hexRunText, List.replicate_succ]

/-- A run of hex pairs is read as its bytes, and what follows it is left, but for spaces. -/
theorem readHex_run (pairs : List (Nat × Byte)) (n : Nat) {tail : List Char} (h : EndsRun tail) :
    ∃ r, readHex (hexRunText pairs ++ (List.replicate n ' ' ++ tail)) = (pairs.map (·.2), r) ∧
      skipSpaces r = skipSpaces tail := by
  induction pairs with
  | nil => simpa [hexRunText] using readHex_end n h
  | cons p ps ih =>
    obtain ⟨k, b⟩ := p
    obtain ⟨r, hr, hs⟩ := ih
    refine ⟨r, ?_, hs⟩
    have ht : hexRunText ((k, b) :: ps) ++ (List.replicate n ' ' ++ tail) =
        List.replicate k ' ' ++ (hexPair b ++ (hexRunText ps ++ (List.replicate n ' ' ++ tail))) := by
      simp [hexRunText]
    have hp := readHex_pair b _ (head_hexRunText ps n h)
    rw [ht]
    calc readHex (List.replicate k ' ' ++ (hexPair b ++ (hexRunText ps ++ (List.replicate n ' ' ++ tail))))
        = readHex (hexPair b ++ (hexRunText ps ++ (List.replicate n ' ' ++ tail))) := readHex_spaces k _ _ _
      _ = _ := by rw [hp, hr]; rfl

/-- Each of the three forms of `<bytes>` is read as its bytes, and what follows it is left, but for spaces. -/
theorem readBytes_form (form : BytesForm) (ha : form.allowed = true) (n : Nat) {tail : List Char} (h : EndsRun tail) :
    ∃ r, readBytes (form.text ++ (List.replicate n ' ' ++ tail)) = some (form.bytes, r) ∧
      skipSpaces r = skipSpaces tail := by
  cases form with
  | empty => exact ⟨List.replicate n ' ' ++ tail, by simp [readBytes, BytesForm.text, BytesForm.bytes], by simp⟩
  | quoted chars =>
    refine ⟨List.replicate n ' ' ++ tail, ?_, by simp⟩
    simp [readBytes, BytesForm.text, show quoteChar ≠ '-' by decide, readQuoted_append _ _ ha]
  | hexRun pairs =>
    obtain ⟨r, hr, hs⟩ := readHex_run pairs n h
    refine ⟨r, ?_, hs⟩
    obtain _ | ⟨⟨k, b⟩, ps⟩ := pairs
    · simp [BytesForm.allowed] at ha
    · have hb := b.isLt
      have hd := hexDigit_ne (show b.toNat / 16 < 16 by omega)
      obtain ⟨c, cs, hc, h1, h2⟩ : ∃ c cs, hexRunText ((k, b) :: ps) ++ (List.replicate n ' ' ++ tail) = c :: cs ∧
          c ≠ '-' ∧ c ≠ quoteChar := by
        cases k with
        | zero => exact ⟨_, _, rfl, hd.2.2.1, hd.2.2.2⟩
        | succ k => exact ⟨_, _, rfl, by decide, by decide⟩
      simp only [BytesForm.text, BytesForm.bytes]
      rw [hc] at hr ⊢
      simp [readBytes, h1, h2, hr]

/-- An operand under its name is read as its bytes. -/
theorem readOperand_text (name : List Char) (hn : name.head? ≠ some ' ' ∧ name ≠ []) (form : BytesForm)
    (ha : form.allowed = true) (k n : Nat) {tail : List Char} (h : EndsRun tail) :
    ∃ r, readOperand name (operandText k name form ++ (List.replicate n ' ' ++ tail)) = some (form.bytes, r) ∧
      skipSpaces r = skipSpaces tail := by
  obtain ⟨r, hr, hs⟩ := readBytes_form form ha n h
  refine ⟨r, ?_, hs⟩
  obtain _ | ⟨c, cs⟩ := name
  · exact absurd rfl hn.2
  · have hc : c ≠ ' ' := by simpa using hn.1
    have hk : skipSpaces (c :: (cs ++ '=' :: (form.text ++ (List.replicate n ' ' ++ tail)))) =
        (c :: cs ++ ['=']) ++ (form.text ++ (List.replicate n ' ' ++ tail)) := by
      unfold skipSpaces
      split
      · rename_i heq; exact absurd (List.cons.inj heq).1 hc
      · simp
    unfold readOperand operandText
    rw [List.append_assoc, skipSpaces_replicate]
    simp only [List.cons_append, List.append_assoc]
    rw [hk, show c :: (cs ++ ['=']) = c :: cs ++ ['='] from rfl, afterPrefix_append]
    exact hr

/-- A mnemonic and a space select the reader of the command's operands. -/
theorem readCommand_mnemonic (rest : List Char) :
    readCommand (['B', 'I', 'N', 'D', ' '] ++ rest) = readBind rest ∧
      readCommand (['C', 'B', 'C', 'E', 'N', 'C', ' '] ++ rest) = readCbc .cbcenc rest ∧
      readCommand (['C', 'B', 'C', 'D', 'E', 'C', ' '] ++ rest) = readCbc .cbcdec rest := by
  refine ⟨?_, ?_, ?_⟩ <;> simp [readCommand, skipSpaces, afterPrefix]

/-- An operand is read alike after lines that differ in their leading spaces only. -/
theorem readOperand_congr (name : List Char) {l l' : List Char} (h : skipSpaces l = skipSpaces l') :
    readOperand name l = readOperand name l' := by
  unfold readOperand
  rw [h]

/-- What the model writes is one of the forms that it reads. -/
theorem writeBytes_form (d : List Byte) :
    ∃ form : BytesForm, form.allowed = true ∧ form.bytes = d ∧ form.text = writeBytes d := by
  cases d with
  | nil => exact ⟨.empty, rfl, rfl, rfl⟩
  | cons b bs =>
    refine ⟨.hexRun ((b :: bs).map (fun x => (0, x))), rfl, ?_, ?_⟩
    · simp [BytesForm.bytes, Function.comp_def]
    · simp [BytesForm.text, hexRunText, writeBytes, List.flatMap_map]

end Sys2Proof.Machine
end

