-- ==== Sys2Proof/Tests/Slice0.lean ====
section
/-! SUPPORT. Small tests: the checks of `WellFormed`, packets of the spec decoded, each command on one step, the units
on one value each, and for every statement with hypotheses an instance that meets them. Expected values are the
spec's (`95_test_vectors.md`, `96_test_vectors_commands.md`, the rules' examples), never the model's own answers. -/

namespace Sys2Proof.Tests

open Sys2Proof.Machine

/-- "This is our key!" (V1). -/
def keyBytes : List Byte :=
  [0x54, 0x68, 0x69, 0x73, 0x20, 0x69, 0x73, 0x20, 0x6f, 0x75, 0x72, 0x20, 0x6b, 0x65, 0x79, 0x21]

/-- "This is 16 bytes" (V1). -/
def ivBytes : List Byte :=
  [0x54, 0x68, 0x69, 0x73, 0x20, 0x69, 0x73, 0x20, 0x31, 0x36, 0x20, 0x62, 0x79, 0x74, 0x65, 0x73]

/-- The key of V1 as a block. -/
def keyBlock : Block :=
  ⟨⟨0x54, 0x68, 0x69, 0x73⟩, ⟨0x20, 0x69, 0x73, 0x20⟩, ⟨0x6f, 0x75, 0x72, 0x20⟩, ⟨0x6b, 0x65, 0x79, 0x21⟩⟩

/-- The IV of V1 as a block. -/
def ivBlock : Block :=
  ⟨⟨0x54, 0x68, 0x69, 0x73⟩, ⟨0x20, 0x69, 0x73, 0x20⟩, ⟨0x31, 0x36, 0x20, 0x62⟩, ⟨0x79, 0x74, 0x65, 0x73⟩⟩

/-- The schedule of the key of V1. -/
def schedule : RoundKeys := keyExpansion keyBlock

/-- An instance bound to the key of V1. -/
def bound : State := { State.reset with rk := some schedule }

/-- `s` with one packet presented. -/
def presents (s : State) (p : Packet) : State := { s with cmd := [.command p] }

/-- The last response that an outcome delivers. -/
def answer (o : Host.Outcome State Fault Refusal) : Option Packet :=
  match o with
  | .next t => t.rsp.getLast?
  | _ => none

/-- Word `i` of the store after an outcome. -/
def storeWord (o : Host.Outcome State Fault Refusal) (i : Fin 44) : Option Word :=
  match o with
  | .next t => t.rk.map (fun w => w[i.val])
  | _ => none

/-! ### WellFormed: an ill-formed command for each check -/

/-- R71: no `ALEN` carries 256. -/
theorem test_bind_with_256_bytes_is_ill_formed : (Instr.bind (List.replicate 256 0)).wellFormed 100 = false := by
  decide +kernel
theorem test_bind_with_255_bytes_is_well_formed : (Instr.bind (List.replicate 255 0)).wellFormed 0 = true := by
  decide +kernel
/-- R74: CBCENC above `MAXLEN`, CBCDEC above `MAXLEN + 16`. -/
theorem test_cbcenc_over_limit_is_ill_formed : (Instr.cbcenc [] [1, 2, 3]).wellFormed 2 = false := by decide
theorem test_cbcdec_over_limit_is_ill_formed : (Instr.cbcdec [] (List.replicate 19 0)).wellFormed 2 = false := by decide
theorem test_cbcdec_at_limit_is_well_formed : (Instr.cbcdec [] (List.replicate 18 0)).wellFormed 2 = true := by decide

/-! ### Decoding: packets written out in the spec -/

/-- R84, V1. -/
theorem test_decode_bind : decode 100 ([0x01, 0x10, 0x00, 0x00, 0x00, 0x00] ++ keyBytes) = .ok (.bind keyBytes) := by decide
/-- V46. -/
theorem test_decode_cbcenc :
    decode 100 ([0x02, 0x10, 0x00, 0x00, 0x00, 0x01] ++ ivBytes ++ [0x41]) = .ok (.cbcenc ivBytes [0x41]) := by decide
/-- V53. -/
theorem test_decode_cbcdec :
    decode 100 ([0x03, 0x03, 0x00, 0x00, 0x00, 0x02, 0x61, 0x62, 0x63, 0x00, 0x01]) = .ok (.cbcdec [0x61, 0x62, 0x63] [0x00, 0x01]) := by
  decide
/-- V54b, V55, V55b, V56, and R74: the five rejections by name. -/
theorem test_decode_rejects_by_name :
    decode 100 [0x02, 0x10, 0x00, 0x00, 0x00] = .error .shortHeader ∧
      decode 100 ([0x04, 0x10, 0x00, 0x00, 0x00, 0x01] ++ ivBytes ++ [0x41]) = .error .reservedOpcode ∧
      decode 100 ([0x02, 0x10, 0x00, 0x00, 0x00, 0x02] ++ ivBytes ++ [0x41]) = .error .lengthMismatch ∧
      decode 100 ([0x01, 0x10, 0x00, 0x00, 0x00, 0x01] ++ keyBytes ++ [0x41]) = .error .bindWithData ∧
      decode 0 ([0x02, 0x10, 0x00, 0x00, 0x00, 0x01] ++ ivBytes ++ [0x41]) = .error .dataTooLong := by decide
/-- `spec/opcode_table.json`: the match of each row is its command with empty operands. -/
theorem test_table_words :
    decodeTableWord 48 0x010000000000 = some (.bind []) ∧ decodeTableWord 48 0x020000000000 = some (.cbcenc [] []) ∧
      decodeTableWord 48 0x030000000000 = some (.cbcdec [] []) ∧ decodeTableWord 48 0x010000000001 = none ∧
      decodeTableWord 48 0x040000000000 = none := by decide
/-- The table's free bits: `ALEN` in bits 39:32, `DLEN` in bits 31:0; the operand bytes are zeros. -/
theorem test_table_word_with_operands : decodeTableWord 48 0x030200000001 = some (.cbcdec [0, 0] [0]) := by decide

/-! ### The commands, one step each -/

/-- V1, R181: the first step of the machine after reset; `RK[43] = fed4c194`. -/
theorem test_bind_fills_the_store :
    storeWord (step (presents State.reset ([0x01, 0x10, 0x00, 0x00, 0x00, 0x00] ++ keyBytes))) 43 =
      some ⟨0xfe, 0xd4, 0xc1, 0x94⟩ := by decide +kernel
/-- V50: InvalidKeyLength, and the old key stays bound. -/
theorem test_short_key_is_rejected :
    answer (exec (.bind [0x73, 0x68, 0x6f, 0x72, 0x74]) bound) = some [0x01, 0x00, 0x00, 0x00, 0x00] ∧
      storeWord (exec (.bind [0x73]) bound) 43 = some ⟨0xfe, 0xd4, 0xc1, 0x94⟩ := by decide +kernel
/-- V46. -/
theorem test_cbcenc_of_one_byte :
    answer (step (presents bound ([0x02, 0x10, 0x00, 0x00, 0x00, 0x01] ++ ivBytes ++ [0x41]))) =
      some [0x00, 0x00, 0x00, 0x00, 0x10, 0x88, 0xb2, 0x9e, 0xfb, 0xfd, 0xef, 0xfa, 0x90, 0x16, 0x53, 0x2f, 0xef, 0x8b, 0x3e,
        0xc3, 0x98] := by decide +kernel
/-- V52: the table's CBCENC as the first command after reset. -/
theorem test_cbcenc_after_reset_has_no_key :
    answer (step (State.reset.withFetchWord 48 0x020000000000)) = some [0x10, 0x00, 0x00, 0x00, 0x00] := by decide +kernel
/-- V46. -/
theorem test_cbcdec_of_one_block :
    answer (step (presents bound ([0x03, 0x10, 0x00, 0x00, 0x00, 0x10] ++ ivBytes ++
      [0x88, 0xb2, 0x9e, 0xfb, 0xfd, 0xef, 0xfa, 0x90, 0x16, 0x53, 0x2f, 0xef, 0x8b, 0x3e, 0xc3, 0x98]))) =
      some [0x00, 0x00, 0x00, 0x00, 0x01, 0x41] := by decide +kernel
/-- V57: the wrong IV "This is 16 bytez" makes the padding of a one-block ciphertext invalid. -/
theorem test_cbcdec_padding_error :
    answer (exec (.cbcdec [0x54, 0x68, 0x69, 0x73, 0x20, 0x69, 0x73, 0x20, 0x31, 0x36, 0x20, 0x62, 0x79, 0x74, 0x65, 0x7a]
      [0x88, 0xb2, 0x9e, 0xfb, 0xfd, 0xef, 0xfa, 0x90, 0x16, 0x53, 0x2f, 0xef, 0x8b, 0x3e, 0xc3, 0x98]) bound) =
      some [0x04, 0x00, 0x00, 0x00, 0x00] := by decide +kernel

/-! ### The units, one value each -/

/-- V26. -/
theorem test_block_transforms :
    encryptBlock ⟨⟨0x00, 0x11, 0x22, 0x33⟩, ⟨0x44, 0x55, 0x66, 0x77⟩, ⟨0x88, 0x99, 0xaa, 0xbb⟩, ⟨0xcc, 0xdd, 0xee, 0xff⟩⟩
        (keyExpansion ⟨⟨0, 1, 2, 3⟩, ⟨4, 5, 6, 7⟩, ⟨8, 9, 10, 11⟩, ⟨12, 13, 14, 15⟩⟩) =
      ⟨⟨0x69, 0xc4, 0xe0, 0xd8⟩, ⟨0x6a, 0x7b, 0x04, 0x30⟩, ⟨0xd8, 0xcd, 0xb7, 0x80⟩, ⟨0x70, 0xb4, 0xc5, 0x5a⟩⟩ := by
  decide +kernel
/-- V20, V23, V15. -/
theorem test_field_and_columns :
    gmul 0x57 0x83 = 0xc1 ∧ mixColumn ⟨0xdb, 0x13, 0x53, 0x45⟩ = ⟨0x8e, 0x4d, 0xa1, 0xbc⟩ ∧
      invMixColumn ⟨0xdb, 0x13, 0x53, 0x45⟩ = ⟨0x32, 0xa4, 0x1d, 0x55⟩ ∧
      subWord (rotWord ⟨0x09, 0xcf, 0x4f, 0x3c⟩) = ⟨0x8a, 0x84, 0xeb, 0x01⟩ := by decide +kernel
/-- V36: `p = 4` with only two trailing bytes of 4; a buffer shorter than `p`; the nearest accepted one. -/
theorem test_unpad :
    unpad [0x41, 0x03, 0x04, 0x04] = none ∧ unpad [0x04, 0x04, 0x04] = none ∧ unpad [0x41, 0x04, 0x04, 0x04, 0x04] = some [0x41] := by
  decide
/-- R84. -/
theorem test_assemble_bind :
    assemble 100 "BIND key=\"This is our key!\"".toList = some ([0x01, 0x10, 0x00, 0x00, 0x00, 0x00] ++ keyBytes) := by
  decide +kernel

/-! ### For each statement with hypotheses, an instance that meets them -/

theorem witness_DecodeOfEncode : (Instr.cbcdec (List.replicate 255 0) (List.replicate 16 0)).wellFormed (0 : MaxLen) = true := by
  decide +kernel
theorem witness_EncodeOfDecode : decode (0 : MaxLen) [0x01, 0x01, 0x00, 0x00, 0x00, 0x00, 0x07] = .ok (.bind [0x07]) := by decide
theorem witness_SpecPacketsDecode : 1 ≤ (Config.resetMaxLen : MaxLen).val := by decide
theorem witness_ReservedOpcodes :
    (presents bound [0x04]).cmd = [.command (0x04 :: [])] ∧ (0x04 : Byte) ≠ 0x01 ∧ (0x04 : Byte) ≠ 0x02 ∧ (0x04 : Byte) ≠ 0x03 := by
  decide
theorem witness_Malformed_short : [0x02, 0x10, 0x00, 0x00, (0x00 : Byte)].length < 6 := by decide
theorem witness_Malformed_length : [0x02, 0x00, 0x00, 0x00, 0x00, (0x01 : Byte)].length ≠ 6 + (0x00 : Byte).toNat + beNat 0 0 0 1 := by
  decide
theorem witness_Malformed_bind : beNat 0 0 0 1 ≠ 0 := by decide
theorem witness_Malformed_cbcenc : (0 : MaxLen).val < beNat 0 0 0 1 := by decide
theorem witness_Malformed_cbcdec : (0 : MaxLen).val + 16 < beNat 0 0 0 17 := by decide
theorem witness_ResponsesReadBack : [(0x41 : Byte)].length < 2 ^ 32 := by decide
/-- R84: the three forms of an operand, a space between pairs, the largest ASCII character, a comment. -/
theorem witness_AssembledPacketsDecode_forms :
    BytesForm.empty.allowed = true ∧ (BytesForm.quoted ['T', Char.ofNat 127]).allowed = true ∧
      (BytesForm.hexRun [(0, 0x00), (1, 0x01), (0, 0xff)]).allowed = true ∧
      (BytesForm.hexRun [(0, 0x00), (1, 0x01), (0, 0xff)]).text = "00 01ff".toList ∧
      operandText 2 ['k', 'e', 'y'] .empty ++ lineEnd 1 (some ['x']) = "   key=- ;x".toList := by decide +kernel
/-- A line with a packet, a line that is a well-formed command, and one that no packet can carry. -/
theorem witness_AssembledPacketsDecode_lines :
    assemble 0 "CBCENC iv=- data=-".toList = some [0x02, 0x00, 0x00, 0x00, 0x00, 0x00] ∧
      readCommand "CBCENC iv=- data=00".toList = some (.cbcenc [] [0x00]) ∧
      (Instr.cbcenc [] [0x00]).wellFormed (1 : MaxLen) = true ∧ (Instr.cbcenc [] [0x00]).wellFormed (0 : MaxLen) = false := by
  decide +kernel
/-- R84: the response is written by its status name. -/
theorem witness_ResponsesAreWritten :
    [(0x0a : Byte)].length < 2 ^ 32 ∧ writeResponse [0x00, 0x00, 0x00, 0x00, 0x01, 0x0a] = some "OK 0a".toList := by
  decide +kernel
theorem witness_StepRunsTheDecodedCommand :
    (presents bound [0x01, 0x00, 0x00, 0x00, 0x00, 0x00]).cmd = [.command [0x01, 0x00, 0x00, 0x00, 0x00, 0x00]] ∧
      decode bound.maxLen [0x01, 0x00, 0x00, 0x00, 0x00, 0x00] = .ok (.bind []) := ⟨rfl, by decide⟩
theorem witness_StepWaitsForAPacket : bound.cmd = [] := rfl
theorem witness_ResetDropsTheKey :
    ({ bound with cmd := [.reset] } : State).cmd = [.reset] ∧
      ({ bound with cmd := [.resetDuring [0x01]] } : State).cmd = [.resetDuring [0x01]] := ⟨rfl, rfl⟩
theorem witness_FieldLaws_inverse : (0x01 : Byte) ≠ 0x00 ∧ gmul 0x01 0x01 = 0x01 ∧ (0xff : Byte) ≠ 0x00 := by decide
theorem witness_KeyExpansionRecurrence : schedule = keyExpansion keyBlock ∧ (39 : Fin 40).val % 4 ≠ 0 := ⟨rfl, by decide⟩
theorem witness_OneRoundKey :
    keyExpansion keyBlock = schedule ∧ roundKey (keyExpansion keyBlock) 10 = roundKey schedule 10 := ⟨rfl, rfl⟩
theorem witness_columns : blockColumn keyBlock 3 = ⟨0x6b, 0x65, 0x79, 0x21⟩ := rfl
theorem witness_lanes :
    blockByte keyBlock 15 = blockByte (shiftRows ⟨keyBlock.c3, keyBlock.c3, keyBlock.c3, keyBlock.c3⟩) 15 ∧
      blockColumn keyBlock 0 = blockColumn ivBlock 0 := ⟨rfl, rfl⟩
theorem witness_whole_blocks :
    keyBytes.length % 16 = 0 ∧ keyBytes.length ≠ 0 ∧ 0 < keyBytes.length / 16 ∧ 15 < keyBytes.length ∧
      15 / 16 + 1 < (keyBytes ++ ivBytes).length / 16 := by decide
theorem witness_empty_chain : ([] : List Byte).length % 16 = 0 := rfl
theorem witness_WrongIv : blockAt (chainDecrypt (bytesOf [keyBlock]) ivBlock schedule) 0 =
    some ((decryptBlock keyBlock schedule).xor ivBlock) := by
  rw [chainDecrypt_bytesOf, blockAt_bytesOf]
  rfl
theorem witness_Bind : keyBytes.length = 16 ∧ blockOfBytes? keyBytes = some keyBlock := by decide
theorem witness_FailedBind :
    ([] : List Byte).length ≠ 16 ∧ (presents bound []).cmd = [.command []] ∧ decode bound.maxLen [] = .error .shortHeader :=
  ⟨by decide, rfl, rfl⟩
theorem witness_Cbcenc :
    bound.rk = some schedule ∧ ivBytes.length = 16 ∧ ([] : List Byte).length ≤ bound.maxLen.val := ⟨rfl, by decide, Nat.zero_le _⟩
theorem witness_CbcencFailures : State.reset.kv = false ∧ bound.kv = true ∧ ([] : List Byte).length ≠ 16 := ⟨rfl, rfl, by decide⟩
theorem witness_CiphertextLength :
    Responds bound (exec (.cbcenc ivBytes []) bound) .ok (chainEncrypt (pad []) ivBlock schedule) := responds_obuf _ _

/-- V46: the ciphertext of the empty plaintext. -/
def emptyCiphertext : List Byte :=
  [0x75, 0x6c, 0x1d, 0xb7, 0x28, 0x73, 0x4d, 0x86, 0xd1, 0x53, 0x08, 0x15, 0x2d, 0x40, 0x30, 0x88]

theorem witness_Cbcdec :
    bound.rk = some schedule ∧ blockOfBytes? ivBytes = some ivBlock ∧ emptyCiphertext.length ≠ 0 ∧
      emptyCiphertext.length % 16 = 0 ∧ unpad (chainDecrypt emptyCiphertext ivBlock schedule) = some [] :=
  ⟨rfl, by decide, by decide, by decide, by decide +kernel⟩
theorem witness_CbcdecFailures_length :
    (([] : List Byte).length = 0 ∨ ([] : List Byte).length % 16 ≠ 0) ∧
      ((0 :: emptyCiphertext).length = 0 ∨ (0 :: emptyCiphertext).length % 16 ≠ 0) := by decide
theorem witness_CbcdecFailures_padding : unpad (chainDecrypt keyBytes ivBlock schedule) = none := by decide +kernel
theorem witness_PlaintextLength : Responds bound (exec (.cbcdec ivBytes emptyCiphertext) bound) .ok [] := by
  obtain ⟨hw, hiv, h0, h16, hu⟩ := witness_Cbcdec
  obtain ⟨hn, -⟩ | ⟨_, -, hn, -⟩ | ⟨_, _, -, -, hl, -⟩ | ⟨w, iv, hw', hiv', -, hn, -⟩ | ⟨w, iv, plain, hw', hiv', -, hu', he⟩ :=
    execCbcdec_cases ivBytes emptyCiphertext bound
  · simp [hw] at hn
  · simp [hiv] at hn
  · omega
  · rw [hw] at hw'; rw [hiv] at hiv'; cases Option.some.inj hw'; cases hiv'; simp [hu] at hn
  · rw [hw] at hw'; rw [hiv] at hiv'; cases Option.some.inj hw'; cases hiv'
    rw [hu] at hu'
    cases hu'
    rw [he]
    exact responds_obuf _ _
/-- V53, V53b, V48: which failure is the first; V54: BadCommand before NoKey. -/
theorem witness_TheFirstFailure :
    failurePriority.find? (failureApplies State.reset [0x03, 0x01, 0, 0, 0, 1, 0, 0]) = some .noKey ∧
      failurePriority.find? (failureApplies bound [0x03, 0x01, 0, 0, 0, 1, 0, 0]) = some .invalidIvLength ∧
      failurePriority.find? (failureApplies bound ([0x03, 0x10, 0, 0, 0, 1] ++ ivBytes ++ [0])) = some .invalidCiphertextLength ∧
      failurePriority.find? (failureApplies bound ([0x03, 0x10, 0, 0, 0, 16] ++ ivBytes ++ keyBytes)) = some .paddingError ∧
      failurePriority.find? (failureApplies bound [0x01, 0, 0, 0, 0, 0]) = some .invalidKeyLength ∧
      failurePriority.find? (failureApplies State.reset [0xff, 0, 0, 0, 0, 0]) = some .badCommand ∧
      failurePriority.find? (failureApplies bound ([0x02, 0x10, 0, 0, 0, 0] ++ ivBytes)) = none := by decide +kernel
theorem witness_SameBinding : bound.SameBinding (presents bound []) := ⟨rfl, rfl⟩
theorem witness_DecryptionUndoesEncryption :
    (presents bound (encode (.cbcenc ivBytes []))).cmd = [.command (encode (.cbcenc ivBytes []))] ∧
      (presents bound (encode (.cbcdec ivBytes emptyCiphertext))).cmd = [.command (encode (.cbcdec ivBytes emptyCiphertext))] :=
  ⟨rfl, rfl⟩
/-- A plaintext of exactly `MAXLEN` bytes. -/
theorem witness_DecryptionUndoesEncryption_at_MAXLEN :
    ({ presents bound (encode (.cbcenc ivBytes [0x41])) with maxLen := 1 } : State).rk = some schedule ∧ ivBytes.length = 16 ∧
      [(0x41 : Byte)].length = (1 : MaxLen).val ∧
      ({ presents bound (encode (.cbcenc ivBytes [0x41])) with maxLen := 1 } : State).cmd =
        [.command (encode (.cbcenc ivBytes [0x41]))] := ⟨rfl, by decide, rfl, rfl⟩
theorem witness_OnlyBindAndReset : ∃ t, step { bound with cmd := [.reset] } = .next t ∧ t.rk ≠ bound.rk :=
  ⟨_, rfl, by intro h; cases h⟩
theorem witness_OnlyBindAndReset_bind :
    ∃ t, step (presents State.reset ([0x01, 0x10, 0, 0, 0, 0] ++ keyBytes)) = .next t ∧ t.rk ≠ State.reset.rk :=
  ⟨((presents State.reset ([0x01, 0x10, 0, 0, 0, 0] ++ keyBytes)).takePacket ([0x01, 0x10, 0, 0, 0, 0] ++ keyBytes)
    |>.bindSchedule schedule).respond .ok [], rfl, by intro h; cases h⟩
theorem witness_BindingIsTheLastBind : bound.cmd = [] ∧ bound.rk = (some keyBlock).map keyExpansion := ⟨rfl, rfl⟩
theorem witness_InvariantBound : bound.Inv :=
  ⟨fun _ h => ⟨keyBlock, (Option.some.inj h).symm⟩, rfl, rfl, fun _ h => nomatch h⟩
theorem witness_InvariantStep : step bound = .next bound := rfl
theorem witness_EveryPacket : (presents bound []).cmd = [([] : Packet)].map .command ∧ 1 ≤ [([] : Packet)].length := ⟨rfl, by decide⟩
theorem witness_Instances : (System.reset 2).cores[1]? = some State.reset ∧ (0 : Nat) ≠ 1 := ⟨rfl, by decide⟩

end Sys2Proof.Tests
end

section
/-! PROOF. One equation for each path of a command, and from them the one fact that the statements about the state rest
on: which response a command gives and which store it leaves are fixed by the store before it and by the command
(`10_state.md` R21, R22, R30). The same is then said of a whole step. -/

namespace Sys2Proof.Machine

/-! ### The paths of the three commands -/

theorem exec_bind_badKey {s : State} {a : List Byte} (ha : blockOfBytes? a = none) :
    exec (.bind a) s = .next (s.raise .invalidKeyLength) := by
  simp [exec, execBind, ha]

theorem exec_bind_ok {s : State} {a : List Byte} {k : Block} (ha : blockOfBytes? a = some k) :
    exec (.bind a) s = .next ((s.bindSchedule (keyExpansion k)).respond .ok []) := by
  simp [exec, execBind, ha]

theorem exec_cbcenc_noKey {s : State} {a data : List Byte} (hs : s.rk = none) :
    exec (.cbcenc a data) s = .next (s.raise .noKey) := by
  simp [exec, execCbcenc, hs]

theorem exec_cbcenc_badIv {s : State} {w : RoundKeys} {a data : List Byte} (hs : s.rk = some w)
    (ha : blockOfBytes? a = none) : exec (.cbcenc a data) s = .next (s.raise .invalidIvLength) := by
  simp [exec, execCbcenc, hs, ha]

theorem exec_cbcenc_ok {s : State} {w : RoundKeys} {a data : List Byte} {iv : Block} (hs : s.rk = some w)
    (ha : blockOfBytes? a = some iv) :
    exec (.cbcenc a data) s = .next (s.fillObuf (chainEncrypt (pad data) iv w)).respondObuf := by
  simp [exec, execCbcenc, hs, ha]

theorem exec_cbcdec_noKey {s : State} {a data : List Byte} (hs : s.rk = none) :
    exec (.cbcdec a data) s = .next (s.raise .noKey) := by
  simp [exec, execCbcdec, hs]

theorem exec_cbcdec_badIv {s : State} {w : RoundKeys} {a data : List Byte} (hs : s.rk = some w)
    (ha : blockOfBytes? a = none) : exec (.cbcdec a data) s = .next (s.raise .invalidIvLength) := by
  simp [exec, execCbcdec, hs, ha]

theorem exec_cbcdec_badLength {s : State} {w : RoundKeys} {a data : List Byte} {iv : Block} (hs : s.rk = some w)
    (ha : blockOfBytes? a = some iv) (hl : data.length = 0 ∨ data.length % 16 ≠ 0) :
    exec (.cbcdec a data) s = .next (s.raise .invalidCiphertextLength) := by
  simp only [exec, execCbcdec, hs, ha]
  exact if_pos hl

theorem exec_cbcdec_badPadding {s : State} {w : RoundKeys} {a data : List Byte} {iv : Block} (hs : s.rk = some w)
    (ha : blockOfBytes? a = some iv) (hl : ¬(data.length = 0 ∨ data.length % 16 ≠ 0))
    (hu : unpad (chainDecrypt data iv w) = none) : exec (.cbcdec a data) s = .next (s.raise .paddingError) := by
  simp only [exec, execCbcdec, hs, ha, hu]
  exact if_neg hl

theorem exec_cbcdec_ok {s : State} {w : RoundKeys} {a data plain : List Byte} {iv : Block} (hs : s.rk = some w)
    (ha : blockOfBytes? a = some iv) (hl : ¬(data.length = 0 ∨ data.length % 16 ≠ 0))
    (hu : unpad (chainDecrypt data iv w) = some plain) :
    exec (.cbcdec a data) s = .next (s.fillObuf plain).respondObuf := by
  simp only [exec, execCbcdec, hs, ha, hu]
  exact if_neg hl

/-! ### How long the data of a response are -/

/-- R185: the ciphertext is at most one block longer than the plaintext. -/
theorem length_chainEncrypt_pad_le (data : List Byte) (iv : Block) (w : RoundKeys) :
    (chainEncrypt (pad data) iv w).length ≤ data.length + 16 := by
  rw [length_chainEncrypt (length_pad_mod data), length_pad]
  exact Nat.add_le_add_left (padLength_bounds _).2 _

/-- R188: the plaintext is no longer than the ciphertext. -/
theorem length_plain_le {data plain : List Byte} {iv : Block} {w : RoundKeys} (hl : data.length % 16 = 0)
    (hu : unpad (chainDecrypt data iv w) = some plain) : plain.length ≤ data.length := by
  obtain ⟨p, -, -, hd⟩ := unpad_eq_some hu
  rw [← length_chainDecrypt hl iv w, hd, List.length_append]
  exact Nat.le_add_right _ _

/-! ### What a command makes of the store -/

/-- R21, R22: the store after a command that found the store `rk`. -/
def storeAfter (i : Instr) (rk : Option RoundKeys) : Option RoundKeys :=
  match i with
  | .bind a => ((blockOfBytes? a).map keyExpansion).orElse (fun _ => rk)
  | .cbcenc _ _ => rk
  | .cbcdec _ _ => rk

/-- R30, R207: every state that holds the store `rk` answers command `i` with this status and these data, and holds
`storeAfter i rk` afterwards; a failing status has no data, and the data that a packet can ask for fit `RLEN`. -/
structure Answers (i : Instr) (rk : Option RoundKeys) (status : Status) (data : List Byte) : Prop where
  outcome : ∀ s : State, s.rk = rk → exec i s = .next ({ s with rk := storeAfter i rk }.respond status data)
  noData : status ≠ .ok → data = []
  fits : ∀ m : MaxLen, i.operandData.length ≤ i.opcode.dataLimit m → data.length < 2 ^ 32

/-- A command whose every run raises one failure answers with it. -/
theorem Answers.of_raise {i : Instr} {rk : Option RoundKeys} {f : Failure} (hstore : storeAfter i rk = rk)
    (h : ∀ s : State, s.rk = rk → exec i s = .next (s.raise f)) : Answers i rk (.failed f) [] where
  outcome s hs := by rw [h s hs, hstore, ← hs]; rfl
  noData _ := rfl
  fits _ _ := by simp

theorem bind_answers (a : List Byte) (rk : Option RoundKeys) : ∃ status data, Answers (.bind a) rk status data := by
  cases ha : blockOfBytes? a with
  | none => exact ⟨_, _, .of_raise (by simp [storeAfter, ha]) fun _ _ => exec_bind_badKey ha⟩
  | some k =>
    have hstore : storeAfter (.bind a) rk = some (keyExpansion k) := by simp [storeAfter, ha]
    exact ⟨.ok, [], fun s _ => by rw [exec_bind_ok ha, hstore]; rfl, fun _ => rfl, fun _ _ => by simp⟩

theorem cbcenc_answers (a data : List Byte) (rk : Option RoundKeys) :
    ∃ status d, Answers (.cbcenc a data) rk status d := by
  cases rk with
  | none => exact ⟨_, _, .of_raise rfl fun _ => exec_cbcenc_noKey⟩
  | some w =>
    cases ha : blockOfBytes? a with
    | none => exact ⟨_, _, .of_raise rfl fun _ hs => exec_cbcenc_badIv hs ha⟩
    | some iv =>
      refine ⟨.ok, chainEncrypt (pad data) iv w, fun s hs => ?_, fun h => absurd rfl h, fun m hm => ?_⟩
      · rw [exec_cbcenc_ok hs ha, show storeAfter (.cbcenc a data) (some w) = s.rk from hs.symm]
        rfl
      · calc (chainEncrypt (pad data) iv w).length
            ≤ data.length + 16 := length_chainEncrypt_pad_le data iv w
          _ ≤ Opcode.cbcdec.dataLimit m := Nat.add_le_add_right hm 16
          _ < 2 ^ 32 := Opcode.dataLimit_lt m .cbcdec

theorem cbcdec_answers (a data : List Byte) (rk : Option RoundKeys) :
    ∃ status d, Answers (.cbcdec a data) rk status d := by
  cases rk with
  | none => exact ⟨_, _, .of_raise rfl fun _ => exec_cbcdec_noKey⟩
  | some w =>
    cases ha : blockOfBytes? a with
    | none => exact ⟨_, _, .of_raise rfl fun _ hs => exec_cbcdec_badIv hs ha⟩
    | some iv =>
      by_cases hl : data.length = 0 ∨ data.length % 16 ≠ 0
      · exact ⟨_, _, .of_raise rfl fun _ hs => exec_cbcdec_badLength hs ha hl⟩
      · cases hu : unpad (chainDecrypt data iv w) with
        | none => exact ⟨_, _, .of_raise rfl fun _ hs => exec_cbcdec_badPadding hs ha hl hu⟩
        | some plain =>
          refine ⟨.ok, plain, fun s hs => ?_, fun h => absurd rfl h, fun m hm => ?_⟩
          · rw [exec_cbcdec_ok hs ha hl hu, show storeAfter (.cbcdec a data) (some w) = s.rk from hs.symm]
            rfl
          · calc plain.length
                ≤ data.length := length_plain_le (by omega) hu
              _ ≤ Opcode.cbcdec.dataLimit m := hm
              _ < 2 ^ 32 := Opcode.dataLimit_lt m .cbcdec

/-- R180: every command has its one answer for each store. -/
theorem exec_answers (i : Instr) (rk : Option RoundKeys) : ∃ status data, Answers i rk status data := by
  cases i with
  | bind a => exact bind_answers a rk
  | cbcenc a data => exact cbcenc_answers a data rk
  | cbcdec a data => exact cbcdec_answers a data rk

/-- R21, R22: a command leaves the store, or it is a BIND of sixteen bytes and the store is their expansion. -/
theorem storeAfter_cases (i : Instr) (rk : Option RoundKeys) :
    storeAfter i rk = rk ∨
      ∃ a k, i = .bind a ∧ blockOfBytes? a = some k ∧ storeAfter i rk = some (keyExpansion k) := by
  cases i with
  | bind a =>
    cases ha : blockOfBytes? a with
    | none => exact .inl (by simp [storeAfter, ha])
    | some k => exact .inr ⟨a, k, rfl, ha, by simp [storeAfter, ha]⟩
  | cbcenc a data => exact .inl rfl
  | cbcdec a data => exact .inl rfl

/-! ### What a packet makes of the store -/

/-- R74: the decoder lets no data above the limit of their opcode through. -/
theorem operandData_le_of_decode {maxLen : Nat} {p : Packet} {i : Instr} (h : decode maxLen p = .ok i) :
    i.operandData.length ≤ i.opcode.dataLimit maxLen := by
  obtain ⟨op, alen, l3, l2, l1, l0, body, -, hlen, hlim, rfl⟩ := decode_eq_ok h
  have hdata : (body.drop alen.toNat).length = beNat l3 l2 l1 l0 := by
    rw [List.length_drop, hlen, Nat.add_sub_cancel_left]
  have hbind : op = .bind → body.drop alen.toNat = [] := by
    rintro rfl
    exact List.eq_nil_of_length_eq_zero (hdata.trans (Nat.le_zero.1 hlim))
  obtain ⟨hop, -, hd⟩ := Opcode.command_fields op (body.take alen.toNat) _ hbind
  rw [hop, hd, hdata]
  exact hlim

/-- R21, R22, R206: the store after a packet that found the store `rk`. -/
def storeAfterPacket (maxLen : Nat) (p : Packet) (rk : Option RoundKeys) : Option RoundKeys :=
  match decode maxLen p with
  | .error _ => rk
  | .ok i => storeAfter i rk

theorem storeAfterPacket_error {maxLen : Nat} {p : Packet} {r : Malformed} (h : decode maxLen p = .error r)
    (rk : Option RoundKeys) : storeAfterPacket maxLen p rk = rk := by
  simp [storeAfterPacket, h]

theorem storeAfterPacket_ok {maxLen : Nat} {p : Packet} {i : Instr} (h : decode maxLen p = .ok i)
    (rk : Option RoundKeys) : storeAfterPacket maxLen p rk = storeAfter i rk := by
  simp [storeAfterPacket, h]

/-- R21, R22: a packet leaves the store, or it decodes to a BIND of sixteen bytes and the store is their expansion. -/
theorem storeAfterPacket_cases (maxLen : Nat) (p : Packet) (rk : Option RoundKeys) :
    storeAfterPacket maxLen p rk = rk ∨
      ∃ a k, decode maxLen p = .ok (.bind a) ∧ blockOfBytes? a = some k ∧
        storeAfterPacket maxLen p rk = some (keyExpansion k) := by
  cases hd : decode maxLen p with
  | error r => exact .inl (storeAfterPacket_error hd rk)
  | ok i =>
    rw [storeAfterPacket_ok hd]
    obtain h | ⟨a, k, rfl, ha, h⟩ := storeAfter_cases i rk
    · exact .inl h
    · exact .inr ⟨a, k, rfl, ha, h⟩

/-- R22, R35: `keyAfter` follows the key of which the store is the expansion. -/
theorem storeAfterPacket_map_keyExpansion (maxLen : Nat) (p : Packet) (key : Option Block) :
    storeAfterPacket maxLen p (key.map keyExpansion) = (keyAfter maxLen key (.command p)).map keyExpansion := by
  cases hd : decode maxLen p with
  | error r => simp [storeAfterPacket, keyAfter, hd]
  | ok i =>
    cases i with
    | bind a => cases ha : blockOfBytes? a <;> simp [storeAfterPacket, storeAfter, keyAfter, hd, ha]
    | cbcenc a data => simp [storeAfterPacket, storeAfter, keyAfter, hd]
    | cbcdec a data => simp [storeAfterPacket, storeAfter, keyAfter, hd]

/-! ### Steps -/

/-- R232: the step with nothing presented. -/
theorem step_idle {s : State} (h : s.cmd = []) : step s = .next s := by
  simp [step, h]

/-- R230, R231: the step on a reset, whether or not it cuts a command short. -/
theorem step_reset {s : State} {e : PortEvent} {rest : List PortEvent} (h : s.cmd = e :: rest)
    (he : e = .reset ∨ ∃ p, e = .resetDuring p) : step s = .next s.applyReset := by
  obtain rfl | ⟨p, rfl⟩ := he <;> simp [step, h]

theorem step_command_error {s : State} {p : Packet} {rest : List PortEvent} {r : Malformed}
    (h : s.cmd = .command p :: rest) (hd : decode s.maxLen p = .error r) :
    step s = .next ((s.takePacket p).raise .badCommand) := by
  simp [step, h, hd]

theorem step_command_ok {s : State} {p : Packet} {rest : List PortEvent} {i : Instr}
    (h : s.cmd = .command p :: rest) (hd : decode s.maxLen p = .ok i) : step s = exec i (s.takePacket p) := by
  simp [step, h, hd]

/-- R30, R76: which response the step on a packet delivers is fixed by `MAXLEN`, the packet and the store, and so is the
store after it. -/
theorem step_command_answers (m : MaxLen) (p : Packet) (rk : Option RoundKeys) :
    ∃ status data, IsResponse (responsePacket status data) ∧
      ∀ (s : State) (rest : List PortEvent), s.cmd = .command p :: rest → s.maxLen = m → s.rk = rk →
        step s = .next ({ s.takePacket p with rk := storeAfterPacket m p rk }.respond status data) := by
  cases hd : decode m p with
  | error r =>
    refine ⟨.failed .badCommand, [], ⟨_, _, rfl, by simp, fun _ => rfl⟩, ?_⟩
    rintro s rest hcmd rfl rfl
    rw [step_command_error hcmd hd, storeAfterPacket_error hd]
    rfl
  | ok i =>
    obtain ⟨status, data, hans⟩ := exec_answers i rk
    refine ⟨status, data, ⟨_, _, rfl, hans.fits m (operandData_le_of_decode hd), hans.noData⟩, ?_⟩
    rintro s rest hcmd rfl hrk
    rw [step_command_ok hcmd hd, hans.outcome (s.takePacket p) hrk, storeAfterPacket_ok hd]

/-- R70, R232: the three things a step can do: wait, take a reset, or take a packet and respond. -/
theorem step_event_cases (s : State) :
    (s.cmd = [] ∧ step s = .next s) ∨
      (∃ e rest, s.cmd = e :: rest ∧ (e = .reset ∨ ∃ p, e = .resetDuring p) ∧ step s = .next s.applyReset) ∨
      ∃ p rest status data, s.cmd = .command p :: rest ∧ IsResponse (responsePacket status data) ∧
        step s = .next ({ s.takePacket p with rk := storeAfterPacket s.maxLen p s.rk }.respond status data) := by
  match h : s.cmd with
  | [] => exact .inl ⟨rfl, step_idle h⟩
  | .reset :: rest => exact .inr (.inl ⟨_, rest, rfl, .inl rfl, step_reset h (.inl rfl)⟩)
  | .resetDuring p :: rest => exact .inr (.inl ⟨_, rest, rfl, .inr ⟨p, rfl⟩, step_reset h (.inr ⟨p, rfl⟩)⟩)
  | .command p :: rest =>
    obtain ⟨status, data, hq, hstep⟩ := step_command_answers s.maxLen p s.rk
    exact .inr (.inr ⟨p, rest, status, data, rfl, hq, hstep s rest h rfl rfl⟩)

/-- R200: every step ends in a next state. -/
theorem exists_step_next (s : State) : ∃ t, step s = .next t := by
  obtain ⟨-, h⟩ | ⟨_, _, -, -, h⟩ | ⟨_, _, _, _, -, -, h⟩ := step_event_cases s <;> exact ⟨_, h⟩

end Sys2Proof.Machine
end

section
/-! PROOF. The statements about resets, the invariant and the binding over time (`10_state.md` R21, R22, R33, R35). -/

namespace Sys2Proof.Machine

/-- Settles O11: each field of the reset state is the constant that the statement names. -/
theorem resetBindsNoKey : Obligations.ResetBindsNoKey :=
  ⟨rfl, rfl, rfl, rfl⟩

/-- Settles O12: both reset events apply the reset operation. -/
theorem resetDropsTheKeyAndAnswersNothing : Obligations.ResetDropsTheKeyAndAnswersNothing := by
  intro s e rest hcmd he
  exact ⟨s.applyReset, step_reset hcmd he, rfl, rfl, rfl, rfl, rfl, by simp [hcmd], rfl⟩

/-- Settles O56: nothing is bound, buffered or delivered after reset. -/
theorem invariantHoldsAtReset : Obligations.InvariantHoldsAtReset where
  bound _ hw := nomatch hw
  ibufEmpty := rfl
  obufEmpty := rfl
  responses _ hq := nomatch hq

/-- A packet leaves the expansion of a key in the store if one was there. -/
theorem isSchedule_storeAfterPacket {rk : Option RoundKeys} (hrk : ∀ w, rk = some w → IsSchedule w) (maxLen : Nat)
    (p : Packet) (w : RoundKeys) (hw : storeAfterPacket maxLen p rk = some w) : IsSchedule w := by
  obtain h | ⟨a, k, -, -, h⟩ := storeAfterPacket_cases maxLen p rk
  · exact hrk w (h.symm.trans hw)
  · exact ⟨k, Option.some.inj (hw.symm.trans h)⟩

/-- Settles O57, by the three things a step can do: waiting keeps the state, a reset empties the store, and a packet
adds one response and leaves the store or the expansion of a key. -/
theorem everyStepKeepsTheInvariant : Obligations.EveryStepKeepsTheInvariant := by
  intro s t hinv hstep
  obtain ⟨-, h⟩ | ⟨e, rest, -, -, h⟩ | ⟨p, rest, status, data, -, hq, h⟩ := step_event_cases s <;>
    cases hstep.symm.trans h
  · exact hinv
  · exact ⟨(fun _ hw => nomatch hw), rfl, rfl, hinv.responses⟩
  · refine ⟨isSchedule_storeAfterPacket hinv.bound s.maxLen p, rfl, rfl, fun q hmem => ?_⟩
    obtain hold | hnew := List.mem_append.1 hmem
    · exact hinv.responses q hold
    · exact List.mem_singleton.1 hnew ▸ hq

/-- Settles O54: of the three things a step can do, waiting leaves the store, and a packet leaves it unless it is a
successful BIND. -/
theorem onlyBindAndResetWriteTheStore : Obligations.OnlyBindAndResetWriteTheStore := by
  intro s t hstep hne
  obtain ⟨-, h⟩ | ⟨e, rest, hcmd, he, h⟩ | ⟨p, rest, status, data, hcmd, -, h⟩ := step_event_cases s <;>
    cases hstep.symm.trans h
  · exact absurd rfl hne
  · obtain rfl | ⟨p, rfl⟩ := he
    · exact .inl ⟨rfl, rest, .inl hcmd⟩
    · exact .inl ⟨rfl, rest, .inr ⟨p, hcmd⟩⟩
  · obtain hkept | ⟨a, k, hd, ha, hbound⟩ := storeAfterPacket_cases s.maxLen p s.rk
    · exact absurd hkept hne
    · exact .inr ⟨p, rest, a, k, hcmd, hd, ha, hbound⟩

/-- R22, R54: one event leaves the expansion of the key that `keyAfter` names, and the later events standing next. -/
theorem step_follows_keyAfter {s : State} {e : PortEvent} {rest : List PortEvent} {key : Option Block}
    (hcmd : s.cmd = e :: rest) (hrk : s.rk = key.map keyExpansion) :
    ∃ t, step s = .next t ∧ t.cmd = rest ∧ t.maxLen = s.maxLen ∧
      t.rk = (keyAfter s.maxLen key e).map keyExpansion := by
  cases e with
  | reset => exact ⟨_, step_reset hcmd (.inl rfl), by simp [hcmd], rfl, rfl⟩
  | resetDuring p => exact ⟨_, step_reset hcmd (.inr ⟨p, rfl⟩), by simp [hcmd], rfl, rfl⟩
  | command p =>
    obtain ⟨status, data, -, hstep⟩ := step_command_answers s.maxLen p (key.map keyExpansion)
    exact ⟨_, hstep s rest hcmd rfl hrk, by simp [hcmd], rfl, storeAfterPacket_map_keyExpansion s.maxLen p key⟩

/-- Settles O55, by induction on the events: each step follows `keyAfter`, and no step changes `MAXLEN`. -/
theorem bindingIsTheLastSuccessfulBind : Obligations.BindingIsTheLastSuccessfulBind := by
  intro events
  induction events with
  | nil => exact fun s key _ hrk => ⟨s, core_run_zero s, hrk⟩
  | cons e rest ih =>
    intro s key hcmd hrk
    obtain ⟨t, hstep, htcmd, hmax, htrk⟩ := step_follows_keyAfter hcmd hrk
    obtain ⟨u, hrun, hurk⟩ := ih t _ htcmd htrk
    exact ⟨u, (core_run_succ hstep rest.length).trans hrun, by rw [hurk, hmax, List.foldl_cons]⟩

/-- Settles O52: one response and one store after it serve every state with this binding. -/
theorem responsesDependOnBindingAndPacketAlone : Obligations.ResponsesDependOnBindingAndPacketAlone := by
  intro s t p rest rest' hsame hs ht
  obtain ⟨status, data, -, hstep⟩ := step_command_answers s.maxLen p s.rk
  exact ⟨_, _, responsePacket status data, hstep s rest hs rfl rfl, hstep t rest' ht hsame.maxLen.symm hsame.rk.symm,
    rfl, rfl, rfl, hsame.maxLen⟩

end Sys2Proof.Machine
end

section
/-! PROOF. What the three commands leave of the state (`10_state.md` R21, R22, R30). -/

namespace Sys2Proof.Machine

/-- Settles O39: sixteen bytes are a block, and BIND then takes its path that binds. -/
theorem bindWithSixteenBytesBinds : Obligations.BindWithSixteenBytesBinds := by
  intro s a ha
  obtain ⟨k, hk, hbytes⟩ := blockOfBytes?_of_length ha
  exact ⟨k, _, hk, hbytes, exec_bind_ok hk, rfl, rfl, rfl, rfl, rfl, rfl, rfl⟩

/-- Settles O42: with a key and a sixteen-byte IV, CBCENC takes its path that responds OK. -/
theorem cbcencCompletes : Obligations.CbcencCompletes := by
  intro s w a data hs ha
  obtain ⟨iv, hiv, hbytes⟩ := blockOfBytes?_of_length ha
  exact ⟨iv, hiv, hbytes, exec_cbcenc_ok hs hiv ▸ responds_obuf s _⟩

/-- Settles O45: with every check passed, CBCDEC takes its path that responds OK. -/
theorem cbcdecCompletes : Obligations.CbcdecCompletes := by
  intro s w a data plain iv hs hiv hne hmod hu
  rw [exec_cbcdec_ok hs hiv (by omega) hu]
  exact responds_obuf s plain

/-- A command that leaves the store keeps the whole binding. -/
theorem keepsBinding_of_storeAfter {i : Instr} {s : State} (h : storeAfter i s.rk = s.rk) :
    ∃ t, exec i s = .next t ∧ s.KeepsBinding t := by
  obtain ⟨status, data, hans⟩ := exec_answers i s.rk
  exact ⟨_, hans.outcome s rfl, h, rfl, rfl, rfl, rfl⟩

/-- Settles O49: neither command writes the store. -/
theorem cbcCommandsKeepTheBinding : Obligations.CbcCommandsKeepTheBinding :=
  fun _ _ _ => ⟨keepsBinding_of_storeAfter rfl, keepsBinding_of_storeAfter rfl⟩

end Sys2Proof.Machine
end

section
/-! PROOF. The key schedule read backwards (`10_state.md` R23, `40_key_schedule.md` R107). -/

namespace Sys2Proof.Machine

theorem roundKey_zero_keyExpansion (k : Block) : roundKey (keyExpansion k) 0 = k := by
  obtain ⟨h0, h1, h2, h3⟩ := keyExpansion_first k
  simp [roundKey, h0, h1, h2, h3]

/-- R107: the recurrence of R104 runs backwards. -/
theorem keyExpansion_getElem_backwards (k : Block) (n : Nat) (h : n < 40) :
    (keyExpansion k)[n] = (keyExpansion k)[n + 4].xor (scheduleTemp ⟨n, h⟩ (keyExpansion k)[n + 3]) := by
  have hforward := keyExpansion_getElem k n h
  simp only [Nat.add_comm 4 n, Nat.add_comm 3 n] at hforward
  rw [hforward, Word.xor_xor_cancel]

/-- R107: four consecutive words determine the key, by induction on the index of the first: the word before them is
computed back from them. -/
theorem key_eq_of_four_words {k k' : Block} (i : Nat) (hi : i ≤ 40)
    (h : ∀ (j : Nat) (_ : j < 4), (keyExpansion k)[i + j] = (keyExpansion k')[i + j]) : k = k' := by
  induction i with
  | zero =>
    calc k = roundKey (keyExpansion k) 0 := (roundKey_zero_keyExpansion k).symm
      _ = roundKey (keyExpansion k') 0 := by
        simp only [roundKey, Block.mk.injEq]
        exact ⟨h 0 (by omega), h 1 (by omega), h 2 (by omega), h 3 (by omega)⟩
      _ = k' := roundKey_zero_keyExpansion k'
  | succ i ih =>
    refine ih (by omega) fun j hj => ?_
    cases j with
    | zero =>
      have h3 := h 2 (by omega)
      have h4 := h 3 (by omega)
      simp only [Nat.add_assoc, Nat.reduceAdd] at h3 h4
      simp only [Nat.add_zero]
      rw [keyExpansion_getElem_backwards k i (by omega), keyExpansion_getElem_backwards k' i (by omega), h3, h4]
    | succ j =>
      have hj' := h j (by omega)
      simpa only [Nat.add_assoc, Nat.add_comm 1 j] using hj'

/-- R107: any one round key determines the key: it is four consecutive words. -/
theorem key_eq_of_roundKey {k k' : Block} (r : Fin 11)
    (h : roundKey (keyExpansion k) r = roundKey (keyExpansion k') r) : k = k' := by
  simp only [roundKey, Block.mk.injEq] at h
  obtain ⟨h0, h1, h2, h3⟩ := h
  refine key_eq_of_four_words (4 * r.val) (by omega) fun j hj => ?_
  match j, hj with
  | 0, _ => exact h0
  | 1, _ => exact h1
  | 2, _ => exact h2
  | 3, _ => exact h3

/-- Settles O20: round key 0 is the key, and the recurrence runs backwards from every other round key. -/
theorem oneRoundKeyDeterminesTheKey : Obligations.OneRoundKeyDeterminesTheKey := by
  intro k k'
  exact ⟨roundKey_zero_keyExpansion k, fun h => key_eq_of_roundKey 0 (by rw [h]),
    fun n => keyExpansion_getElem_backwards k n.val n.isLt, key_eq_of_roundKey⟩

end Sys2Proof.Machine
end

section
/-! PROOF. Several instances (`10_state.md` R34). -/

namespace Sys2Proof.Machine

/-- With the step as a function, a system's step modifies the one entry of its list that steps; an index past the end
modifies nothing (log entry 11). -/
theorem System.stepInstance_eq_modify {f : State → State} (hf : ∀ s, step s = .next (f s)) (sys : System) (k : Nat) :
    sys.stepInstance k = .next ⟨sys.cores.modify k f⟩ := by
  rw [List.modify_eq_set_getElem?]
  cases h : sys.cores[k]? with
  | none => simp [System.stepInstance, h]
  | some s => simp [System.stepInstance, h, hf]

/-- Settles O59: modifying one entry leaves the others, and modifications of two entries commute. -/
theorem instancesAreIndependent : Obligations.InstancesAreIndependent := by
  obtain ⟨f, hf⟩ := Classical.skolem.1 exists_step_next
  refine ⟨fun sys k s hs => ?_, fun sys j k hjk => ?_⟩
  · exact ⟨f s, _, hf s, sys.stepInstance_eq_modify hf k, by simp [hs],
      fun j hj => List.getElem?_modify_ne f sys.cores hj.symm⟩
  · refine ⟨_, _, _, sys.stepInstance_eq_modify hf j, sys.stepInstance_eq_modify hf k,
      System.stepInstance_eq_modify hf _ k, ?_⟩
    rw [System.stepInstance_eq_modify hf, List.modify_modify_ne f f sys.cores hjk]

end Sys2Proof.Machine
end

section
/-! PROOF. The ports over a run of packets (`30_encoding.md` R70, `60_exceptions.md` R207, `70_reset_and_hazards.md`
R243). -/

namespace Sys2Proof.Machine

/-- R232: with nothing presented, any number of steps is waiting. -/
theorem core_run_idle {s : State} (h : s.cmd = []) (n : Nat) : core.run n s = .next s := by
  induction n with
  | zero => exact core_run_zero s
  | succ n ih => exact (core_run_succ (step_idle h) n).trans ih

/-- R70: the step on a packet takes that packet and delivers one response. -/
theorem step_command_takes_one {s : State} {p : Packet} {rest : List PortEvent} (h : s.cmd = .command p :: rest) :
    ∃ t q, step s = .next t ∧ IsResponse q ∧ t.cmd = rest ∧ t.rsp = s.rsp ++ [q] := by
  obtain ⟨status, data, hq, hstep⟩ := step_command_answers s.maxLen p s.rk
  exact ⟨_, _, hstep s rest h rfl rfl, hq, by simp [h], rfl⟩

/-- Settles O58, by induction on the packets: the first step delivers the first response, and the state it leaves
presents the other packets; with none left, CORE waits. -/
theorem everyPacketGetsOneResponse : Obligations.EveryPacketGetsOneResponse := by
  intro packets
  induction packets with
  | nil =>
    intro s hcmd
    refine ⟨[], rfl, List.forall_mem_nil _, fun k hk => ?_, fun n => ?_⟩
    · obtain rfl := Nat.le_zero.1 hk
      exact ⟨s, core_run_zero s, hcmd, by simp⟩
    · exact (core_run_idle hcmd _).trans (core_run_zero s).symm
  | cons p packets ih =>
    intro s hcmd
    obtain ⟨t, q, hstep, hq, htcmd, htrsp⟩ := step_command_takes_one hcmd
    obtain ⟨responses, hlen, hall, htaken, hwait⟩ := ih t htcmd
    refine ⟨q :: responses, congrArg Nat.succ hlen, List.forall_mem_cons.2 ⟨hq, hall⟩, fun k hk => ?_, fun n => ?_⟩
    · cases k with
      | zero => exact ⟨s, core_run_zero s, hcmd, by simp⟩
      | succ k =>
        obtain ⟨u, hrun, hucmd, hursp⟩ := htaken k (Nat.le_of_succ_le_succ hk)
        exact ⟨u, (core_run_succ hstep k).trans hrun, hucmd, by simp [hursp, htrsp]⟩
    · rw [List.length_cons, Nat.succ_add, core_run_succ hstep, core_run_succ hstep, hwait]

end Sys2Proof.Machine
end

section
/-! PROOF. The laws of `gmul` that make the inverse of a byte unique (`41_block_cipher.md` R123). Two sides that are
additive in an argument agree once they agree on the powers of `x`. -/

namespace Sys2Proof.Machine

/-- R123: `gmul` is commutative: both sides are additive in both bytes. -/
theorem gmul_comm (a b : Byte) : gmul a b = gmul b a := by
  have hpowers : ∀ i j : Fin 8, gmul (1#8 <<< i.val) (1#8 <<< j.val) = gmul (1#8 <<< j.val) (1#8 <<< i.val) := by
    decide +kernel
  refine additive_ext (f := (gmul · b)) (g := gmul b) (gmul_xor_left · · b) (gmul_xor_right b) (fun i => ?_) a
  exact additive_ext (f := gmul (1#8 <<< i.val)) (g := (gmul · (1#8 <<< i.val))) (gmul_xor_right _)
    (gmul_xor_left · · _) (hpowers i) b

/-- R123: `gmul` is associative: both sides are additive in all three bytes. -/
theorem gmul_assoc (a b c : Byte) : gmul (gmul a b) c = gmul a (gmul b c) := by
  have hpowers : ∀ i j k : Fin 8, gmul (gmul (1#8 <<< i.val) (1#8 <<< j.val)) (1#8 <<< k.val) =
      gmul (1#8 <<< i.val) (gmul (1#8 <<< j.val) (1#8 <<< k.val)) := by
    decide +kernel
  refine additive_ext (f := fun a => gmul (gmul a b) c) (g := (gmul · (gmul b c)))
    (fun _ _ => by simp only [gmul_xor_left]) (gmul_xor_left · · _) (fun i => ?_) a
  refine additive_ext (f := fun b => gmul (gmul _ b) c) (g := fun b => gmul _ (gmul b c))
    (fun _ _ => by simp only [gmul_xor_left, gmul_xor_right]) (fun _ _ => by simp only [gmul_xor_left, gmul_xor_right])
    (fun j => ?_) b
  exact additive_ext (f := gmul (gmul _ _)) (g := fun c => gmul _ (gmul _ c)) (gmul_xor_right _)
    (fun _ _ => by simp only [gmul_xor_right]) (hpowers i j) c

/-- R123: `0x01` is the identity of `gmul`. -/
theorem gmul_one_left (a : Byte) : gmul 0x01 a = a := by
  have hpowers : ∀ i : Fin 8, gmul 0x01 (1#8 <<< i.val) = 1#8 <<< i.val := by decide
  exact additive_ext (g := id) (gmul_xor_right _) (fun _ _ => rfl) hpowers a

/-- R123: `0x00` annihilates. -/
theorem gmul_zero_left (a : Byte) : gmul 0x00 a = 0x00 := by
  simpa using gmul_xor_left 0x00 0x00 a

/-- R123: a byte has at most one inverse. -/
theorem gmul_inverse_unique {a v w : Byte} (hv : gmul a v = 0x01) (hw : gmul a w = 0x01) : v = w :=
  calc v = gmul (gmul a w) v := by rw [hw, gmul_one_left]
    _ = gmul w (gmul a v) := by rw [gmul_comm a w, gmul_assoc]
    _ = w := by rw [hv, gmul_comm, gmul_one_left]

/-- R123: the search for the inverse finds every inverse there is. -/
theorem ginv_eq_of_gmul_eq_one {a v : Byte} (hv : gmul a v = 0x01) : ginv a = v := by
  unfold ginv
  cases hfound : ((List.range 256).map (BitVec.ofNat 8)).find? (fun v => gmul a v == 0x01) with
  | none =>
    have hmem : v ∈ (List.range 256).map (BitVec.ofNat 8) :=
      List.mem_map.2 ⟨v.toNat, List.mem_range.2 v.isLt, by simp⟩
    exact absurd (by simpa using hv) (List.find?_eq_none.1 hfound v hmem)
  | some w => exact gmul_inverse_unique (by simpa using List.find?_some hfound) hv

/-- R123: the search for an inverse of 0 finds none. -/
theorem ginv_zero : ginv 0x00 = 0x00 := by
  have hnone : ((List.range 256).map (BitVec.ofNat 8)).find? (fun v => gmul 0x00 v == 0x01) = none :=
    List.find?_eq_none.2 fun v _ => by rw [gmul_zero_left]; decide
  rw [ginv, hnone, Option.getD_none]

end Sys2Proof.Machine
end

section
/-! PROOF. The statements about the constant tables (`20_memory.md` R43 to R46). -/

namespace Sys2Proof.Machine

/-- Settles O13: each table undoes the other at every byte, and three entries are read off. -/
theorem inverseSboxIsTheInverse : Obligations.InverseSboxIsTheInverse :=
  ⟨fun b => ⟨invSbox_sbox b, sbox_invSbox b⟩, by decide, by decide, by decide⟩

/-- R45: the recurrence of the round constants, checked over the nine entries that have one before them. -/
theorem rcon_succ (j : Fin 9) : rcon j.succ = xtime (rcon j.castSucc) := by
  decide +revert

/-- Settles O14: the recurrence holds entry by entry, and a round-constant word is defined as the rule says. -/
theorem roundConstantsArePowers : Obligations.RoundConstantsArePowers :=
  ⟨rfl, rcon_succ, fun _ => rfl⟩

/-- R46: the affine map of the construction. -/
def sboxAffine (v : Byte) : Byte :=
  v ^^^ v.rotateLeft 1 ^^^ v.rotateLeft 2 ^^^ v.rotateLeft 3 ^^^ v.rotateLeft 4 ^^^ 0x63

/-- R46: the inverse of the affine map of the construction. -/
def sboxAffineInv (y : Byte) : Byte :=
  y.rotateLeft 1 ^^^ y.rotateLeft 3 ^^^ y.rotateLeft 6 ^^^ 0x05

theorem sboxConstruction_eq (a : Byte) : sboxConstruction a = sboxAffine (ginv a) := rfl

theorem sboxAffine_sboxAffineInv (y : Byte) : sboxAffine (sboxAffineInv y) = y := by
  revert y
  decide +kernel

/-- R46: with the affine map taken off, the entry of a byte other than 0 is an inverse of that byte. -/
theorem gmul_sboxAffineInv_sbox (a : Byte) (ha : a ≠ 0x00) : gmul a (sboxAffineInv (sbox a)) = 0x01 := by
  revert a
  decide +kernel

/-- R46: with the affine map taken off, the S-box is `ginv`. -/
theorem ginv_eq_sboxAffineInv_sbox (a : Byte) : ginv a = sboxAffineInv (sbox a) := by
  by_cases ha : a = 0x00
  · subst ha
    rw [ginv_zero]
    decide
  · exact ginv_eq_of_gmul_eq_one (gmul_sboxAffineInv_sbox a ha)

/-- R46: the table is the construction. -/
theorem sbox_eq_sboxConstruction (a : Byte) : sbox a = sboxConstruction a := by
  rw [sboxConstruction_eq, ginv_eq_sboxAffineInv_sbox, sboxAffine_sboxAffineInv]

/-- R46: no entry is its index, or its index with all bits inverted. -/
theorem sbox_ne_index (b : Byte) : sbox b ≠ b ∧ sbox b ≠ b ^^^ 0xff := by
  revert b
  decide +kernel

/-- Settles O15: the table is the construction, its inverse is at hand, and the exclusive-or and the two sums are
computed from the tables. -/
theorem sboxIsTheConstruction : Obligations.SboxIsTheConstruction :=
  ⟨sbox_eq_sboxConstruction, ginv_eq_of_gmul_eq_one (by decide), by decide,
    fun b => ⟨invSbox_sbox b, sbox_ne_index b⟩, by decide +kernel, by decide +kernel, by decide +kernel⟩

end Sys2Proof.Machine
end

section
/-! PROOF. Decoding and encoding are inverse (`30_encoding.md` R71, R79, R83). Which packets decode to a command is said
once, as an equivalence, and every statement about the decoder reads one direction of it. -/

namespace Sys2Proof

/-- R75: the three opcode values differ. -/
theorem Opcode.code_injective : Function.Injective Opcode.code :=
  fun _ _ h => Option.some.inj (by rw [← Opcode.ofCode?_code, h, Opcode.ofCode?_code])

/-- R71, R79: a packet decodes to a command exactly when it is the opcode, `ALEN` and `DLEN` that count the operands,
and then the operands, with the data within the limit of the opcode. -/
theorem decode_eq_ok_iff {maxLen : Nat} {p : Packet} {i : Instr} :
    decode maxLen p = .ok i ↔ ∃ alen l3 l2 l1 l0,
      p = i.opcode.code :: alen :: l3 :: l2 :: l1 :: l0 :: (i.operandA ++ i.operandData) ∧
        i.operandA.length = alen.toNat ∧ i.operandData.length = beNat l3 l2 l1 l0 ∧
        i.operandData.length ≤ i.opcode.dataLimit maxLen := by
  constructor
  · intro h
    obtain ⟨op, alen, l3, l2, l1, l0, body, rfl, hlen, hlim, rfl⟩ := decode_eq_ok h
    have hdata : (body.drop alen.toNat).length = beNat l3 l2 l1 l0 := by
      rw [List.length_drop, hlen, Nat.add_sub_cancel_left]
    have hbind : op = .bind → body.drop alen.toNat = [] := by
      rintro rfl
      exact List.eq_nil_of_length_eq_zero (hdata.trans (Nat.le_zero.1 hlim))
    obtain ⟨hop, ha, hd⟩ := Opcode.command_fields op (body.take alen.toNat) _ hbind
    rw [hop, ha, hd, List.take_append_drop]
    exact ⟨alen, l3, l2, l1, l0, rfl, List.length_take_of_le (by omega), hdata, hdata ▸ hlim⟩
  · rintro ⟨alen, l3, l2, l1, l0, rfl, ha, hd, hlim⟩
    have hlen : (i.operandA ++ i.operandData).length = alen.toNat + beNat l3 l2 l1 l0 := by
      rw [List.length_append, ha, hd]
    rw [decode_header, Opcode.ofCode?_code, ← ha, ← hd]
    simp [Nat.not_lt.2 hlim, Instr.command_opcode]

/-- Settles O1: the header that `encode` writes counts the operands, because `ALEN` and `DLEN` can hold their lengths. -/
theorem decodeOfEncode : Obligations.DecodeOfEncode := by
  intro m i hwf
  obtain ⟨ha, hd⟩ := (wellFormed_iff m i).1 hwf
  have hlt : i.operandData.length < 2 ^ 32 := hd.trans_lt (Opcode.dataLimit_lt m _)
  refine decode_eq_ok_iff.2 ⟨_, _, _, _, _, rfl, ?_, (beNat_beBytes _ hlt).symm, hd⟩
  rw [BitVec.toNat_ofNat, Nat.mod_eq_of_lt (by omega)]

/-- Settles O2: the header of a packet that decodes counts the operands, and `encode` writes those counts back. -/
theorem encodeOfDecode : Obligations.EncodeOfDecode := by
  intro m p i h
  obtain ⟨alen, l3, l2, l1, l0, rfl, ha, hd, hlim⟩ := decode_eq_ok_iff.1 h
  refine ⟨(wellFormed_iff m i).2 ⟨?_, hlim⟩, ?_⟩
  · rw [ha]
    exact Nat.le_of_lt_succ alen.isLt
  · simp [encode, ha, hd, beBytes_beNat]

/-- Settles O3: each packet is the header that counts its operands, and then the operands. -/
theorem specPacketsDecode : Obligations.SpecPacketsDecode := by
  intro m hm
  exact ⟨decode_eq_ok_iff.2 ⟨_, _, _, _, _, rfl, rfl, rfl, Nat.zero_le _⟩,
    decode_eq_ok_iff.2 ⟨_, _, _, _, _, rfl, rfl, rfl, hm⟩,
    decode_eq_ok_iff.2 ⟨_, _, _, _, _, rfl, rfl, rfl, Nat.add_le_add_right hm 16⟩⟩

end Sys2Proof
end

section
/-! PROOF. The step on a packet: it is the command that the packet decodes to, and BadCommand for a packet that decodes
to none (`30_encoding.md` R79 to R81, `60_exceptions.md` R200, R206). -/

namespace Sys2Proof.Machine

/-- Settles O8: taking the packet that stands first leaves the events behind it. -/
theorem stepRunsTheDecodedCommand : Obligations.StepRunsTheDecodedCommand := by
  intro s p rest i hcmd hd
  rw [step_command_ok hcmd hd, State.takePacket, hcmd, List.tail_cons]

/-- Settles O10: waiting, a reset and a packet each leave a next state. -/
theorem everyStepEndsInANextState : Obligations.EveryStepEndsInANextState :=
  exists_step_next

/-- R206: a packet that decodes to no command is answered BadCommand, and nothing is written. -/
theorem stepResponds_badCommand {s : State} {p : Packet} {rest : List PortEvent} (hcmd : s.cmd = .command p :: rest)
    (hp : ∀ i, decode s.maxLen p ≠ .ok i) : StepResponds s (.failed .badCommand) [] := by
  cases hd : decode s.maxLen p with
  | error r => exact ⟨_, step_command_error hcmd hd, rfl, rfl, rfl, rfl, rfl, rfl⟩
  | ok i => exact absurd hd (hp i)

/-- Settles O4: the packet of a command begins with one of the three opcodes. -/
theorem reservedOpcodesAreBadCommands : Obligations.ReservedOpcodesAreBadCommands := by
  intro s opc more rest hcmd h1 h2 h3
  refine stepResponds_badCommand hcmd fun i hi => ?_
  obtain ⟨_, _, _, _, _, hp, -, -, -⟩ := decode_eq_ok_iff.1 hi
  have hsome : Opcode.ofCode? opc = some i.opcode := by rw [(List.cons.inj hp).1, Opcode.ofCode?_code]
  rw [(Opcode.ofCode?_eq_none_iff opc).2 ⟨h1, h2, h3⟩] at hsome
  cases hsome

/-- Settles O5: the packet of a command has a whole header, the length that the header counts, and data within the limit
of its opcode, so none of the four faults. -/
theorem malformedPacketsAreBadCommands : Obligations.MalformedPacketsAreBadCommands := by
  intro s p rest hcmd hbad
  refine stepResponds_badCommand hcmd fun i hi => ?_
  obtain ⟨alen, l3, l2, l1, l0, rfl, ha, hd, hlim⟩ := decode_eq_ok_iff.1 hi
  obtain hshort | ⟨opc, alen', k3, k2, k1, k0, body, hp, hfault⟩ := hbad
  · simp only [List.length_cons] at hshort
    omega
  · simp only [List.cons.injEq] at hp
    obtain ⟨rfl, rfl, rfl, rfl, rfl, rfl, -⟩ := hp
    have hwithin : ∀ op, i.opcode.code = Opcode.code op → beNat l3 l2 l1 l0 ≤ op.dataLimit s.maxLen := by
      intro op hop
      rw [← hd, ← Opcode.code_injective hop]
      exact hlim
    obtain hlen | ⟨hop, hover⟩ | ⟨hop, hover⟩ | ⟨hop, hover⟩ := hfault
    · apply hlen
      simp only [List.length_cons, List.length_append, ha, hd]
      omega
    · exact hover (Nat.le_zero.1 (hwithin .bind hop))
    · exact Nat.not_le.2 hover (hwithin .cbcenc hop)
    · exact Nat.not_le.2 hover (hwithin .cbcdec hop)

end Sys2Proof.Machine
end

section
/-! PROOF. Response packets and their written form (`30_encoding.md` R76, R77, R84). -/

namespace Sys2Proof.Machine

/-- R76: a response is read back, because `RLEN` holds the length of its data. -/
theorem readResponse_responsePacket (status : Status) {data : List Byte} (h : data.length < 2 ^ 32) :
    readResponse (responsePacket status data) = some (status, data) := by
  simp only [responsePacket, beBytes, List.cons_append, List.nil_append, readResponse, beNat_beBytes _ h, if_true,
    Status.ofCode?_code, Option.map_some]

/-- Settles O6: a response is read back, and the codes are those of the table. -/
theorem responsesReadBack : Obligations.ResponsesReadBack :=
  ⟨fun status _ h => readResponse_responsePacket status h, responsePacket_failed, rfl, rfl, rfl, rfl, rfl, rfl, rfl⟩

/-- R84: a response with data is written `OK` and its data. -/
theorem writeResponse_ok {data : List Byte} (h : data.length < 2 ^ 32) :
    writeResponse (responsePacket .ok data) = some (['O', 'K', ' '] ++ writeBytes data) := by
  rw [writeResponse, readResponse_responsePacket _ h]
  rfl

/-- R84: a failing response is written by the name of its status. -/
theorem writeResponse_failed (f : Failure) :
    writeResponse (responsePacket (.failed f) []) = some (statusName (.failed f)).toList := by
  rw [writeResponse, readResponse_responsePacket _ (by simp)]

/-- Settles O60: what the model writes for the data is one of the forms of `<bytes>`. -/
theorem responsesAreWritten : Obligations.ResponsesAreWritten := by
  refine ⟨fun data h => ?_, writeResponse_failed _, writeResponse_failed _, writeResponse_failed _,
    writeResponse_failed _, writeResponse_failed _, writeResponse_failed _⟩
  obtain ⟨form, hallowed, hbytes, htext⟩ := writeBytes_form data
  exact ⟨form, hallowed, hbytes, by rw [writeResponse_ok h, htext]⟩

end Sys2Proof.Machine
end

section
/-! PROOF. The written form of commands (`30_encoding.md` R84): a line with its operands in any form is read as its
command, and what it assembles to decodes to that command. -/

namespace Sys2Proof.Machine

/-- A mnemonic before an operand selects the reader of the command's operands: each reader passes over the spaces
before its first operand, so the one that ends the mnemonic may stand. -/
theorem readCommand_operandText (n : Nat) (name : List Char) (form : BytesForm) (rest : List Char) :
    readCommand (['B', 'I', 'N', 'D'] ++ (operandText n name form ++ rest)) =
        readBind (operandText n name form ++ rest) ∧
      readCommand (['C', 'B', 'C', 'E', 'N', 'C'] ++ (operandText n name form ++ rest)) =
        readCbc .cbcenc (operandText n name form ++ rest) ∧
      readCommand (['C', 'B', 'C', 'D', 'E', 'C'] ++ (operandText n name form ++ rest)) =
        readCbc .cbcdec (operandText n name form ++ rest) :=
  readCommand_mnemonic (List.replicate n ' ' ++ (name ++ '=' :: form.text) ++ rest)

/-- The last operand of a line is read as its bytes, and the line ends after it. -/
theorem readOperand_lineEnd (name : List Char) (hn : name.head? ≠ some ' ' ∧ name ≠ []) {form : BytesForm}
    (ha : form.allowed = true) (n e : Nat) (comment : Option (List Char)) :
    ∃ r, readOperand name (operandText n name form ++ lineEnd e comment) = some (form.bytes, r) ∧
      endsLine r = true := by
  obtain ⟨r, hr, hs⟩ := readOperand_text name hn form ha n e (endsRun_commentText comment)
  exact ⟨r, hr, endsLine_of_skipSpaces hs⟩

/-- The text after a CBC mnemonic is read as its two operands: the spaces and `data=` after the first one end it. -/
theorem readCbc_operandText (make : List Byte → List Byte → Instr) {iv data : BytesForm} (hiv : iv.allowed = true)
    (hdata : data.allowed = true) (n n' e : Nat) (comment : Option (List Char)) :
    readCbc make (operandText n ['i', 'v'] iv ++ (operandText n' ['d', 'a', 't', 'a'] data ++ lineEnd e comment)) =
      some (make iv.bytes data.bytes) := by
  have hsplit : operandText n' ['d', 'a', 't', 'a'] data ++ lineEnd e comment =
      List.replicate (n' + 1) ' ' ++ (['d', 'a', 't', 'a', '='] ++ (data.text ++ lineEnd e comment)) := by
    simp [operandText]
  obtain ⟨r, hr, hs⟩ := readOperand_text ['i', 'v'] (by simp) iv hiv n (n' + 1)
    (.inr (.inr ⟨data.text ++ lineEnd e comment, rfl⟩))
  obtain ⟨r', hr', hend⟩ := readOperand_lineEnd ['d', 'a', 't', 'a'] (by simp) hdata n' e comment
  have hspaces : skipSpaces r = skipSpaces (operandText n' ['d', 'a', 't', 'a'] data ++ lineEnd e comment) := by
    rw [hs, hsplit, skipSpaces_replicate]
  rw [← hsplit] at hr
  rw [readCbc, hr]
  simp only [readOperand_congr _ hspaces, hr', hend, if_true]

/-- A `BIND` line is read as the command. -/
theorem readCommand_bind {key : BytesForm} (ha : key.allowed = true) (n e : Nat) (comment : Option (List Char)) :
    readCommand (['B', 'I', 'N', 'D'] ++ operandText n ['k', 'e', 'y'] key ++ lineEnd e comment) =
      some (.bind key.bytes) := by
  obtain ⟨r, hr, hend⟩ := readOperand_lineEnd ['k', 'e', 'y'] (by simp) ha n e comment
  rw [List.append_assoc, (readCommand_operandText ..).1, readBind, hr]
  exact if_pos hend

/-- The assembler gives a line the packet of its command if the command is well-formed. -/
theorem assemble_of_readCommand {maxLen : Nat} {line : List Char} {i : Instr} (h : readCommand line = some i) :
    assemble maxLen line = if i.wellFormed maxLen then some (encode i) else none := by
  rw [assemble, h]

/-- What assembles is the packet of the well-formed command that the line writes. -/
theorem exists_of_assemble {maxLen : Nat} {line : List Char} {p : Packet} (h : assemble maxLen line = some p) :
    ∃ i, readCommand line = some i ∧ i.wellFormed maxLen = true ∧ encode i = p := by
  cases hread : readCommand line with
  | none => simp [assemble, hread] at h
  | some i =>
    rw [assemble_of_readCommand hread] at h
    obtain ⟨hwf, hp⟩ := Option.ite_none_right_eq_some.1 h
    exact ⟨i, rfl, hwf, Option.some.inj hp⟩

/-- Settles O7: the reader takes each line apart as it is written, and the packet of a well-formed command decodes to
that command. -/
theorem assembledPacketsDecode : Obligations.AssembledPacketsDecode := by
  refine ⟨fun key n e comment ha => readCommand_bind ha n e comment, fun iv data n n' e comment hiv hdata => ?_,
    writeBytes_form, fun m line i hread => ?_, fun m line p hp => ?_⟩
  · simp only [List.append_assoc, readCommand_operandText, readCbc_operandText _ hiv hdata, and_self]
  · rw [assemble_of_readCommand hread]
    exact ⟨fun hwf => if_pos hwf, fun hwf => by simp [hwf]⟩
  · obtain ⟨i, hread, hwf, rfl⟩ := exists_of_assemble hp
    exact ⟨i, hread, decodeOfEncode m i hwf⟩

end Sys2Proof.Machine
end

section
/-! PROOF. The key schedule read forwards, and what BIND leaves bound (`40_key_schedule.md` R101 to R107). -/

namespace Sys2Proof.Machine

/-- R104: the temporary of a word whose index is a multiple of 4; `4 * j` counts from word 4. -/
theorem scheduleTemp_four_mul (j : Fin 10) (h : 4 * j.val < 40) (v : Word) :
    scheduleTemp ⟨4 * j.val, h⟩ v = (subWord (rotWord v)).xor (rconWord j) := by
  have hj : (⟨4 * j.val / 4, by omega⟩ : Fin 10) = j := Fin.ext (Nat.mul_div_cancel_left j.val (by decide))
  rw [scheduleTemp, if_pos (Nat.mul_mod_right 4 j.val), hj]

/-- R104: the temporary of every other word is the word before it. -/
theorem scheduleTemp_of_mod_ne {n : Fin 40} (h : n.val % 4 ≠ 0) (v : Word) : scheduleTemp n v = v :=
  if_neg h

/-- R104: the recurrence, with the indices written as the statements write them. -/
theorem keyExpansion_getElem_forwards (k : Block) (n : Nat) (h : n < 40) :
    (keyExpansion k)[n + 4] = (keyExpansion k)[n].xor (scheduleTemp ⟨n, h⟩ (keyExpansion k)[n + 3]) := by
  simpa only [Nat.add_comm] using keyExpansion_getElem k n h

/-- Settles O19: the words after the key follow one recurrence, and its temporary is one of two by the index mod 4. -/
theorem keyExpansionRecurrence : Obligations.KeyExpansionRecurrence := by
  rintro k w rfl
  obtain ⟨h0, h1, h2, h3⟩ := keyExpansion_first k
  refine ⟨h0, h1, h2, h3, fun j => ?_, fun n hn => ?_⟩
  · rw [keyExpansion_getElem_forwards k (4 * j.val) (by omega), scheduleTemp_four_mul]
  · rw [keyExpansion_getElem_forwards k n.val n.isLt, scheduleTemp_of_mod_ne hn]

/-- Settles O41: in both states BIND takes its path that binds, and the schedule that it writes is made of the key. -/
theorem rebindingForgetsTheOldKey : Obligations.RebindingForgetsTheOldKey := by
  intro s s' a ha
  obtain ⟨k, hk, -⟩ := blockOfBytes?_of_length ha
  exact ⟨_, _, exec_bind_ok hk, exec_bind_ok hk, rfl, rfl⟩

/-- R101: four rotations by one place of four bytes. -/
theorem rotWord_four_times (w : Word) : rotWord (rotWord (rotWord (rotWord w))) = w := rfl

/-- R104: moving the bytes and substituting each of them commute. -/
theorem rotWord_subWord (w : Word) : rotWord (subWord w) = subWord (rotWord w) := rfl

/-- Settles O18: both values are the definitions read at four bytes. -/
theorem rotWordAndSubWordCommute : Obligations.RotWordAndSubWordCommute :=
  fun _ _ _ _ => ⟨rfl, rfl, rotWord_four_times _, rotWord_subWord _⟩

end Sys2Proof.Machine
end

section
/-! PROOF. The field laws, and the constant multipliers as products (`41_block_cipher.md` R123, R124). The multipliers
are sums of the powers 1, `x`, `x^2` and `x^3`, so the laws of `gmul` reduce them all to its product with `x`. -/

namespace Sys2Proof.Machine

/-- R123: `ginv` of a byte other than 0 is an inverse of it, because the S-box holds one. -/
theorem gmul_ginv {a : Byte} (ha : a ≠ 0x00) : gmul a (ginv a) = 0x01 := by
  rw [ginv_eq_sboxAffineInv_sbox, gmul_sboxAffineInv_sbox a ha]

/-- Settles O16: additivity gives the ring laws, and the S-box table has an inverse for every byte other than 0. -/
theorem fieldLaws : Obligations.FieldLaws :=
  ⟨gmul_comm, gmul_assoc, gmul_xor_right, fun a => ⟨gmul_one_left a, gmul_zero_left a⟩,
    fun _ ha => ⟨gmul_ginv ha, fun _ hv => (ginv_eq_of_gmul_eq_one hv).symm⟩, ginv_zero⟩

theorem gmul_one_right (a : Byte) : gmul a 0x01 = a := by
  rw [gmul_comm, gmul_one_left]

/-- R122: `xtime` is the product with `x`: both sides are additive. -/
theorem gmul_02 (a : Byte) : gmul a 0x02 = mul02 a := by
  have hpowers : ∀ i : Fin 8, gmul (1#8 <<< i.val) 0x02 = mul02 (1#8 <<< i.val) := by decide
  exact additive_ext (f := (gmul · 0x02)) (gmul_xor_left · · _) mul02_xor hpowers a

/-- `0x04` is `x^2`. -/
theorem gmul_04 (a : Byte) : gmul a 0x04 = xtime (xtime a) := by
  rw [show (0x04 : Byte) = gmul 0x02 0x02 by decide, ← gmul_assoc, gmul_02, gmul_02, mul02, mul02]

/-- `0x08` is `x^3`. -/
theorem gmul_08 (a : Byte) : gmul a 0x08 = xtime (xtime (xtime a)) := by
  rw [show (0x08 : Byte) = gmul 0x04 0x02 by decide, ← gmul_assoc, gmul_04, gmul_02, mul02]

theorem gmul_03 (a : Byte) : gmul a 0x03 = mul03 a := by
  rw [show (0x03 : Byte) = 0x02 ^^^ 0x01 by decide, gmul_xor_right, gmul_02, gmul_one_right, mul02, mul03]

theorem gmul_09 (a : Byte) : gmul a 0x09 = mul09 a := by
  rw [show (0x09 : Byte) = 0x08 ^^^ 0x01 by decide, gmul_xor_right, gmul_08, gmul_one_right, mul09]

theorem gmul_0b (a : Byte) : gmul a 0x0b = mul0b a := by
  rw [show (0x0b : Byte) = 0x08 ^^^ 0x02 ^^^ 0x01 by decide, gmul_xor_right, gmul_xor_right, gmul_08, gmul_02,
    gmul_one_right, mul02, mul0b]

theorem gmul_0d (a : Byte) : gmul a 0x0d = mul0d a := by
  rw [show (0x0d : Byte) = 0x08 ^^^ 0x04 ^^^ 0x01 by decide, gmul_xor_right, gmul_xor_right, gmul_08, gmul_04,
    gmul_one_right, mul0d]

theorem gmul_0e (a : Byte) : gmul a 0x0e = mul0e a := by
  rw [show (0x0e : Byte) = 0x08 ^^^ 0x04 ^^^ 0x02 by decide, gmul_xor_right, gmul_xor_right, gmul_08, gmul_04,
    gmul_02, mul02, mul0e]

/-- Settles O17: each constant is a sum of the powers of `x` up to `x^3`. -/
theorem constantMultipliersAreProducts : Obligations.ConstantMultipliersAreProducts :=
  fun a => ⟨gmul_02 a, gmul_03 a, gmul_09 a, gmul_0b a, gmul_0d a, gmul_0e a⟩

end Sys2Proof.Machine
end

section
/-! PROOF. The steps of the block transforms byte by byte and column by column (`41_block_cipher.md` R125 to R131,
R141). -/

namespace Sys2Proof.Machine

/-- R11: byte `j` of an exclusive-or. -/
@[simp] theorem wordByte_xor (v w : Word) (j : Fin 4) : wordByte (v.xor w) j = wordByte v j ^^^ wordByte w j :=
  match j with
  | 0 | 1 | 2 | 3 => rfl

/-- R47: column `c` of an exclusive-or. -/
@[simp] theorem blockColumn_xor (s t : Block) (c : Fin 4) :
    blockColumn (s.xor t) c = (blockColumn s c).xor (blockColumn t c) :=
  match c with
  | 0 | 1 | 2 | 3 => rfl

@[simp] theorem wordByte_mapWord (f : Byte → Byte) (w : Word) (j : Fin 4) :
    wordByte (mapWord f w) j = f (wordByte w j) :=
  match j with
  | 0 | 1 | 2 | 3 => rfl

@[simp] theorem blockColumn_mapColumns (f : Word → Word) (s : Block) (c : Fin 4) :
    blockColumn (mapColumns f s) c = f (blockColumn s c) :=
  match c with
  | 0 | 1 | 2 | 3 => rfl

/-- R125: byte `i` of the result is made of the two bytes `i`. -/
theorem blockByte_addRoundKey (s k : Block) (i : Fin 16) :
    blockByte (addRoundKey s k) i = blockByte s i ^^^ blockByte k i := by
  simp only [blockByte, addRoundKey, blockColumn_xor, wordByte_xor]

/-- R126: byte `i` of the result is the table entry of byte `i`. -/
theorem blockByte_subBytes (s : Block) (i : Fin 16) : blockByte (subBytes s) i = sbox (blockByte s i) := by
  simp only [blockByte, subBytes, blockColumn_mapColumns, wordByte_mapWord]

/-- R127: byte `i` of the result is the inverse table's entry of byte `i`. -/
theorem blockByte_invSubBytes (s : Block) (i : Fin 16) : blockByte (invSubBytes s) i = invSbox (blockByte s i) := by
  simp only [blockByte, invSubBytes, blockColumn_mapColumns, wordByte_mapWord]

theorem blockColumn_mixColumns (s : Block) (c : Fin 4) :
    blockColumn (mixColumns s) c = mixColumn (blockColumn s c) :=
  blockColumn_mapColumns mixColumn s c

theorem blockColumn_invMixColumns (s : Block) (c : Fin 4) :
    blockColumn (invMixColumns s) c = invMixColumn (blockColumn s c) :=
  blockColumn_mapColumns invMixColumn s c

/-- R128: the flat form, read off at the sixteen indices. -/
theorem blockByte_shiftRows (s : Block) (i : Fin 16) :
    blockByte (shiftRows s) i = blockByte s (i + 4 * (i % 4)) := by
  fin_cases i <;> rfl

/-- R129: the flat form, read off at the sixteen indices. -/
theorem blockByte_invShiftRows (s : Block) (i : Fin 16) :
    blockByte (invShiftRows s) i = blockByte s (i - 4 * (i % 4)) := by
  fin_cases i <;> rfl

/-- R128: row `r` moves `4 * r` columns in all. -/
theorem shiftRows_four_times (s : Block) : shiftRows (shiftRows (shiftRows (shiftRows s))) = s := rfl

/-- R125: the all-zero round key changes nothing. -/
theorem addRoundKey_zero (s : Block) :
    addRoundKey s ⟨⟨0, 0, 0, 0⟩, ⟨0, 0, 0, 0⟩, ⟨0, 0, 0, 0⟩, ⟨0, 0, 0, 0⟩⟩ = s := by
  simp [addRoundKey, Block.xor, Word.xor]

/-- Settles O21: AddRoundKey is the exclusive-or, whose every element is its own inverse. -/
theorem addRoundKeyIsItsOwnInverse : Obligations.AddRoundKeyIsItsOwnInverse :=
  fun s k => ⟨blockByte_addRoundKey s k, addRoundKey_addRoundKey s k, addRoundKey_zero s⟩

/-- Settles O22: both operations are maps over the bytes, by tables that undo each other. -/
theorem subBytesMapsEachByte : Obligations.SubBytesMapsEachByte :=
  fun s => ⟨blockByte_subBytes s, blockByte_invSubBytes s, invSubBytes_subBytes s, subBytes_invSubBytes s⟩

/-- Settles O23: both operations move bytes, each by the index of its place. -/
theorem shiftRowsPermutesTheBytes : Obligations.ShiftRowsPermutesTheBytes :=
  fun s => ⟨blockByte_shiftRows s, blockByte_invShiftRows s, invShiftRows_shiftRows s, shiftRows_invShiftRows s,
    shiftRows_four_times s⟩

/-- Settles O24: the column function of MixColumns, with its multipliers as products. -/
theorem mixColumnsMultipliesEachColumn : Obligations.MixColumnsMultipliesEachColumn := by
  intro s c a0 a1 a2 a3 hcolumn
  rw [blockColumn_mixColumns, hcolumn]
  simp only [mixColumn, gmul_02, gmul_03]

/-- Settles O26: each byte or column of a result is a function of the byte or column at its place. -/
theorem lanesAreIndependent : Obligations.LanesAreIndependent := by
  refine fun s t k l => ⟨fun i hbyte => ⟨?_, ?_, fun hkey => ?_⟩, fun c hcolumn => ⟨?_, ?_⟩⟩
  · rw [blockByte_subBytes, blockByte_subBytes, hbyte]
  · rw [blockByte_invSubBytes, blockByte_invSubBytes, hbyte]
  · rw [blockByte_addRoundKey, blockByte_addRoundKey, hbyte, hkey]
  · rw [blockColumn_mixColumns, blockColumn_mixColumns, hcolumn]
  · rw [blockColumn_invMixColumns, blockColumn_invMixColumns, hcolumn]

end Sys2Proof.Machine
end

section
/-! PROOF. InvMixColumns undoes MixColumns (`41_block_cipher.md` R131). Both matrices are circulant, so both column
functions commute with the rotation of the column, and byte 0 of their composition decides the other three. -/

namespace Sys2Proof.Machine

/-- R130: the matrix is circulant. -/
theorem mixColumn_rotWord (w : Word) : mixColumn (rotWord w) = rotWord (mixColumn w) := by
  simp only [mixColumn, rotWord, Word.mk.injEq]
  refine ⟨?_, ?_, ?_, ?_⟩ <;> ac_rfl

/-- R131: the inverse matrix is circulant. -/
theorem invMixColumn_rotWord (w : Word) : invMixColumn (rotWord w) = rotWord (invMixColumn w) := by
  simp only [invMixColumn, rotWord, Word.mk.injEq]
  refine ⟨?_, ?_, ?_, ?_⟩ <;> ac_rfl

/-- A function of words that commutes with the rotation and keeps byte 0 keeps the word: byte `j` is byte 0 after `j`
rotations. -/
theorem eq_self_of_rotWord {f : Word → Word} (hrot : ∀ w, f (rotWord w) = rotWord (f w))
    (hzero : ∀ w, (f w).b0 = w.b0) (w : Word) : f w = w := by
  have h1 : (f w).b1 = w.b1 := by
    have h := hzero (rotWord w)
    rwa [hrot] at h
  have h2 : (f w).b2 = w.b2 := by
    have h := hzero (rotWord (rotWord w))
    rwa [hrot, hrot] at h
  have h3 : (f w).b3 = w.b3 := by
    have h := hzero (rotWord (rotWord (rotWord w)))
    rwa [hrot, hrot, hrot] at h
  calc f w = ⟨(f w).b0, (f w).b1, (f w).b2, (f w).b3⟩ := rfl
    _ = w := by rw [hzero, h1, h2, h3]

/-- R131: row 0 of the inverse matrix times the matrix is `01 00 00 00`. -/
theorem invMixColumn_mixColumn_b0 (w : Word) : (invMixColumn (mixColumn w)).b0 = w.b0 := by
  obtain ⟨h0, -, -, -⟩ := mix_products w.b0
  obtain ⟨-, h1, -, -⟩ := mix_products w.b1
  obtain ⟨-, -, h2, -⟩ := mix_products w.b2
  obtain ⟨-, -, -, h3⟩ := mix_products w.b3
  simp only [invMixColumn, mixColumn, mul0e_xor, mul0b_xor, mul0d_xor, mul09_xor]
  exact (regroup h0 h1 h2 h3).trans (by simp)

/-- R131: row 0 of the matrix times the inverse matrix is `01 00 00 00`. -/
theorem mixColumn_invMixColumn_b0 (w : Word) : (mixColumn (invMixColumn w)).b0 = w.b0 := by
  obtain ⟨h0, -, -, -⟩ := mix_products' w.b0
  obtain ⟨-, h1, -, -⟩ := mix_products' w.b1
  obtain ⟨-, -, h2, -⟩ := mix_products' w.b2
  obtain ⟨-, -, -, h3⟩ := mix_products' w.b3
  simp only [invMixColumn, mixColumn, mul02_xor, mul03_xor]
  exact (regroup h0 h1 h2 h3).trans (by simp)

@[simp] theorem invMixColumn_mixColumn (w : Word) : invMixColumn (mixColumn w) = w :=
  eq_self_of_rotWord (f := fun w => invMixColumn (mixColumn w))
    (fun w => by rw [mixColumn_rotWord, invMixColumn_rotWord]) invMixColumn_mixColumn_b0 w

@[simp] theorem mixColumn_invMixColumn (w : Word) : mixColumn (invMixColumn w) = w :=
  eq_self_of_rotWord (f := fun w => mixColumn (invMixColumn w))
    (fun w => by rw [invMixColumn_rotWord, mixColumn_rotWord]) mixColumn_invMixColumn_b0 w

@[simp] theorem invMixColumns_mixColumns (s : Block) : invMixColumns (mixColumns s) = s := by
  simp only [invMixColumns, mixColumns, mapColumns, invMixColumn_mixColumn]

@[simp] theorem mixColumns_invMixColumns (s : Block) : mixColumns (invMixColumns s) = s := by
  simp only [invMixColumns, mixColumns, mapColumns, mixColumn_invMixColumn]

/-- Settles O25: the column function of InvMixColumns, with its multipliers as products, undoes that of MixColumns. -/
theorem invMixColumnsUndoesMixColumns : Obligations.InvMixColumnsUndoesMixColumns := by
  refine ⟨fun s c a0 a1 a2 a3 hcolumn => ?_, fun s => ⟨invMixColumns_mixColumns s, mixColumns_invMixColumns s⟩⟩
  rw [blockColumn_invMixColumns, hcolumn]
  simp only [invMixColumn, gmul_09, gmul_0b, gmul_0d, gmul_0e]

end Sys2Proof.Machine
end

section
/-! PROOF. The block transforms, round by round, and each as the inverse of the other (`41_block_cipher.md` R135 to
R139). The rounds of the two transforms are cut at different places: a round of one undoes a round of the other between
states that are half a round apart, which `foldl_undo` carries over the nine rounds. -/

namespace Sys2Proof.Machine

/-- Settles O27: the two folds run the rounds of `middleRounds` in its order and in the reverse order. -/
theorem roundKeysAreUsedInOrder : Obligations.RoundKeysAreUsedInOrder :=
  fun _ _ => ⟨rfl, rfl⟩

/-- R137: a round of DecryptBlock undoes the round of EncryptBlock with its key, after SubBytes and ShiftRows. -/
theorem decryptRound_encryptRound (w : RoundKeys) (s : Block) (r : Fin 11) :
    decryptRound w (shiftRows (subBytes (encryptRound w s r))) r = shiftRows (subBytes s) := by
  simp only [decryptRound, encryptRound, invShiftRows_shiftRows, invSubBytes_subBytes, addRoundKey_addRoundKey,
    invMixColumns_mixColumns]

/-- R137: a round of EncryptBlock undoes the round of DecryptBlock with its key, after InvShiftRows and InvSubBytes. -/
theorem encryptRound_decryptRound (w : RoundKeys) (s : Block) (r : Fin 11) :
    encryptRound w (invSubBytes (invShiftRows (decryptRound w s r))) r = invSubBytes (invShiftRows s) := by
  simp only [decryptRound, encryptRound, subBytes_invSubBytes, shiftRows_invShiftRows, mixColumns_invMixColumns,
    addRoundKey_addRoundKey]

/-- R137: DecryptBlock undoes EncryptBlock. -/
@[simp] theorem decryptBlock_encryptBlock (b : Block) (w : RoundKeys) : decryptBlock (encryptBlock b w) w = b := by
  have hrounds := foldl_undo (encryptRound w) (decryptRound w) (fun s => shiftRows (subBytes s))
    (decryptRound_encryptRound w) middleRounds (addRoundKey b (roundKey w 0))
  simp only [decryptBlock, encryptBlock, addRoundKey_addRoundKey, hrounds, invShiftRows_shiftRows,
    invSubBytes_subBytes]

/-- R137: EncryptBlock undoes DecryptBlock. -/
@[simp] theorem encryptBlock_decryptBlock (b : Block) (w : RoundKeys) : encryptBlock (decryptBlock b w) w = b := by
  have hrounds := foldl_undo (decryptRound w) (encryptRound w) (fun s => invSubBytes (invShiftRows s))
    (encryptRound_decryptRound w) middleRounds.reverse (addRoundKey b (roundKey w 10))
  rw [List.reverse_reverse] at hrounds
  simp only [decryptBlock, encryptBlock, addRoundKey_addRoundKey, hrounds, subBytes_invSubBytes,
    shiftRows_invShiftRows]

/-- Settles O28: each transform undoes the other, round by round, whatever the 44 words are. -/
theorem blockTransformsAreInverse : Obligations.BlockTransformsAreInverse :=
  fun b w => ⟨decryptBlock_encryptBlock b w, encryptBlock_decryptBlock b w⟩

end Sys2Proof.Machine
end

section
/-! PROOF. Chaining forwards (`42_cbc_chain.md` R150 to R152, R157): every block of ChainEncrypt by its own equation,
and a chain over two runs of blocks cut between them. What follows the whole blocks may be any buffer. -/

namespace Sys2Proof.Machine

/-- The block before block `i` of a chain: the chaining value for `i = 0`, and block `i - 1` otherwise. -/
theorem previous_of_getElem?_cons {ch p : Block} {bs : List Block} {i : Nat} (h : (ch :: bs)[i]? = some p) :
    if i = 0 then p = ch else bs[i - 1]? = some p := by
  cases i with
  | zero => simpa using h.symm
  | succ i => simpa using h

/-- Every place of a run of blocks has its block and the block before it in the chain. -/
theorem exists_block_and_previous (ch : Block) {bs chain : List Block} (hlen : chain.length = bs.length) {i : Nat}
    (hi : i < bs.length) : ∃ b p, bs[i]? = some b ∧ (ch :: chain)[i]? = some p :=
  ⟨_, _, List.getElem?_eq_getElem hi, List.getElem?_eq_getElem (by rw [List.length_cons, hlen]; omega)⟩

/-- R151: every ciphertext block is made from the plaintext block at its place and the ciphertext block before it. -/
theorem chainEncryptBlocks_eq_zipWith (rk : RoundKeys) (ch : Block) (bs : List Block) :
    chainEncryptBlocks rk ch bs =
      List.zipWith (fun b p => encryptBlock (b.xor p) rk) bs (ch :: chainEncryptBlocks rk ch bs) := by
  induction bs generalizing ch with
  | nil => rfl
  | cons b bs ih => exact congrArg (encryptBlock (b.xor ch) rk :: ·) (ih _)

/-- Settles O29: the equation of each block, read at one place of the buffer. -/
theorem chainEncryptChainsTheBlocks : Obligations.ChainEncryptChainsTheBlocks := by
  intro d iv w hd
  refine ⟨length_chainEncrypt hd iv w, fun i hi => ?_⟩
  obtain ⟨bs, rfl⟩ := exists_bytesOf hd
  have hlt : i < bs.length := by simpa using hi
  obtain ⟨b, p, hb, hp⟩ := exists_block_and_previous iv (length_chainEncryptBlocks w iv bs) hlt
  simp only [chainEncrypt_bytesOf, blockAt_bytesOf]
  refine ⟨b, p, hb, previous_of_getElem?_cons hp, ?_⟩
  rw [chainEncryptBlocks_eq_zipWith, List.getElem?_zipWith, hb, hp]

/-- R151: after a run of blocks the chain goes on from the last ciphertext block, or from where it began if there is
none. -/
theorem chainEncryptBlocks_append (rk : RoundKeys) (ch : Block) (bs cs : List Block) :
    chainEncryptBlocks rk ch (bs ++ cs) =
      chainEncryptBlocks rk ch bs ++ chainEncryptBlocks rk ((chainEncryptBlocks rk ch bs).getLastD ch) cs := by
  induction bs generalizing ch with
  | nil => rfl
  | cons b bs ih => simp only [List.cons_append, chainEncryptBlocks, ih, List.getLastD_cons]

/-- R151: a buffer that begins with whole blocks is encrypted in two parts. -/
theorem chainEncrypt_bytesOf_append (bs : List Block) (e : List Byte) (iv : Block) (rk : RoundKeys) :
    chainEncrypt (bytesOf bs ++ e) iv rk =
      chainEncrypt (bytesOf bs) iv rk ++ chainEncrypt e ((chainEncryptBlocks rk iv bs).getLastD iv) rk := by
  simp only [chainEncrypt, blocksOf_bytesOf_append, blocksOf_bytesOf, chainEncryptBlocks_append, bytesOf_append]

/-- Settles O30: the first of the two parts is the encryption of the beginning, whatever follows. -/
theorem ciphertextDependsOnNoLaterBlock : Obligations.CiphertextDependsOnNoLaterBlock := by
  intro d e iv w hd
  obtain ⟨bs, rfl⟩ := exists_bytesOf hd
  rw [chainEncrypt_bytesOf_append]
  exact List.take_left' (length_chainEncrypt hd iv w)

/-- Settles O31: the beginning has a last ciphertext block, and the second of the two parts goes on from it. -/
theorem lastCiphertextBlockContinuesTheChain : Obligations.LastCiphertextBlockContinuesTheChain := by
  intro d e iv w hd hne
  obtain ⟨bs, rfl⟩ := exists_bytesOf hd
  have hlen : (chainEncryptBlocks w iv bs).length = (bytesOf bs).length / 16 := by simp
  have hcs : chainEncryptBlocks w iv bs ≠ [] := List.ne_nil_of_length_pos (by rw [length_bytesOf] at hlen hne; omega)
  have hlast := List.getLast?_eq_getLast_of_ne_nil hcs
  refine ⟨(chainEncryptBlocks w iv bs).getLast hcs, ?_, ?_⟩
  · rw [chainEncrypt_bytesOf, blockAt_bytesOf, ← hlen, ← List.getLast?_eq_getElem?, hlast]
  · rw [chainEncrypt_bytesOf_append, List.getLastD_eq_getLast?, hlast, Option.getD_some]

/-- R157: at every block both chains hold the same chaining value, so the exclusive-or of one undoes that of the
other. -/
@[simp] theorem chainDecryptBlocks_chainEncryptBlocks (rk : RoundKeys) (ch : Block) (bs : List Block) :
    chainDecryptBlocks rk ch (chainEncryptBlocks rk ch bs) = bs := by
  induction bs generalizing ch with
  | nil => rfl
  | cons b bs ih => simp [chainEncryptBlocks, chainDecryptBlocks, ih]

/-- Settles O33: block by block, ChainDecrypt undoes ChainEncrypt. -/
theorem chainsAreInverse : Obligations.ChainsAreInverse := by
  intro d iv w hd
  obtain ⟨bs, rfl⟩ := exists_bytesOf hd
  rw [chainEncrypt_bytesOf, chainDecrypt_bytesOf, chainDecryptBlocks_chainEncryptBlocks]

end Sys2Proof.Machine
end

section
/-! PROOF. The closed form of ChainDecrypt (`42_cbc_chain.md` R155) and what it says of a damaged input: a changed
ciphertext block reaches its own block and the next alone (R156), a changed IV block 0 alone (R154, R237). A flipped bit
of a buffer is an exclusive-or of one block with the block `bitBlock`, in which that bit alone is set. -/

namespace Sys2Proof.Machine

/-- R155: every plaintext block is made from the ciphertext block at its place and the ciphertext block before it. -/
theorem chainDecryptBlocks_eq_zipWith (rk : RoundKeys) (ch : Block) (cs : List Block) :
    chainDecryptBlocks rk ch cs = List.zipWith (fun c p => (decryptBlock c rk).xor p) cs (ch :: cs) := by
  induction cs generalizing ch with
  | nil => rfl
  | cons c cs ih => exact congrArg ((decryptBlock c rk).xor ch :: ·) (ih c)

/-- R155: plaintext block `i`, given the ciphertext block at its place and the one before it. -/
theorem getElem?_chainDecryptBlocks (rk : RoundKeys) {ch c p : Block} {cs : List Block} {i : Nat}
    (hc : cs[i]? = some c) (hp : (ch :: cs)[i]? = some p) :
    (chainDecryptBlocks rk ch cs)[i]? = some ((decryptBlock c rk).xor p) := by
  rw [chainDecryptBlocks_eq_zipWith, List.getElem?_zipWith, hc, hp]

/-- Settles O32: the closed form, read at one place of the buffer. -/
theorem chainDecryptHasAClosedForm : Obligations.ChainDecryptHasAClosedForm := by
  intro c iv w hc
  refine ⟨length_chainDecrypt hc iv w, fun i hi => ?_⟩
  obtain ⟨cs, rfl⟩ := exists_bytesOf hc
  have hlt : i < cs.length := by simpa using hi
  obtain ⟨b, p, hb, hp⟩ := exists_block_and_previous iv (rfl : cs.length = cs.length) hlt
  simp only [chainDecrypt_bytesOf, blockAt_bytesOf]
  exact ⟨b, p, hb, previous_of_getElem?_cons hp, getElem?_chainDecryptBlocks w hb hp⟩

/-- Settles O35: the IV meets block 0 alone, by an exclusive-or; the blocks after it are chained with the input. -/
theorem wrongIvSpoilsBlockZeroOnly : Obligations.WrongIvSpoilsBlockZeroOnly := by
  intro c iv iv' w hc
  obtain ⟨cs, rfl⟩ := exists_bytesOf hc
  have hdrop (bs : List Block) : (bytesOf bs).drop 16 = bytesOf (bs.drop 1) := bytesOf_drop bs 1
  simp only [chainDecrypt_bytesOf, blockAt_bytesOf, hdrop]
  cases cs with
  | nil => exact ⟨by simp [chainDecryptBlocks], rfl⟩
  | cons c cs =>
    refine ⟨fun b hb => ?_, rfl⟩
    obtain rfl : (decryptBlock c w).xor iv = b := by simpa [chainDecryptBlocks] using hb
    simp [chainDecryptBlocks, ← Block.xor_assoc]

/-! ### One block of the input changed -/

/-- R155, R156: a change of ciphertext block `j` reaches no plaintext block but `j` and `j + 1`. -/
theorem getElem?_chainDecryptBlocks_modify_of_ne (rk : RoundKeys) (ch : Block) (cs : List Block) (f : Block → Block)
    {i j : Nat} (hj : i ≠ j) (hj1 : i ≠ j + 1) :
    (chainDecryptBlocks rk ch (cs.modify j f))[i]? = (chainDecryptBlocks rk ch cs)[i]? := by
  rw [chainDecryptBlocks_eq_zipWith, chainDecryptBlocks_eq_zipWith, ← List.modify_succ_cons]
  simp only [List.getElem?_zipWith, List.getElem?_modify_ne _ _ hj.symm, List.getElem?_modify_ne _ _ hj1.symm]

/-- R155, R156: ciphertext block `j`, changed, is decrypted in its changed form and chained as before. -/
theorem getElem?_chainDecryptBlocks_modify_self (rk : RoundKeys) (ch : Block) {cs : List Block} {j : Nat} {c p : Block}
    (hc : cs[j]? = some c) (hp : (ch :: cs)[j]? = some p) (f : Block → Block) :
    (chainDecryptBlocks rk ch (cs.modify j f))[j]? = some ((decryptBlock (f c) rk).xor p) := by
  refine getElem?_chainDecryptBlocks rk ?_ ?_
  · simp [hc]
  · rw [← List.modify_succ_cons, List.getElem?_modify_ne _ _ (Nat.succ_ne_self j), hp]

/-- R155, R156: a block exclusive-ored into ciphertext block `j` stands in plaintext block `j + 1` as it is. -/
theorem getElem?_chainDecryptBlocks_modify_succ (rk : RoundKeys) (ch m : Block) (cs : List Block) (j : Nat) :
    (chainDecryptBlocks rk ch (cs.modify j (·.xor m)))[j + 1]? =
      ((chainDecryptBlocks rk ch cs).modify (j + 1) (·.xor m))[j + 1]? := by
  rw [List.getElem?_modify_eq, chainDecryptBlocks_eq_zipWith, chainDecryptBlocks_eq_zipWith, ← List.modify_succ_cons]
  simp only [List.getElem?_zipWith, List.getElem?_modify_eq, List.getElem?_modify_ne _ _ (Nat.ne_add_one j)]
  cases cs[j + 1]? <;> cases (ch :: cs)[j + 1]? <;> simp [Block.xor_assoc]

/-! ### One flipped bit -/

/-- Byte `i` of the block in which bit `bit` of byte `j` alone is set. -/
def bitByte (j : Nat) (bit : Fin 8) (i : Nat) : Byte :=
  if j = i then 1#8 <<< bit.val else 0

/-- R156: the block in which bit `bit` of byte `j` alone is set. -/
def bitBlock (j : Nat) (bit : Fin 8) : Block :=
  let m := bitByte j bit
  ⟨⟨m 0, m 1, m 2, m 3⟩, ⟨m 4, m 5, m 6, m 7⟩, ⟨m 8, m 9, m 10, m 11⟩, ⟨m 12, m 13, m 14, m 15⟩⟩

theorem blockBytes_bitBlock (j : Nat) (bit : Fin 8) :
    blockBytes (bitBlock j bit) = (List.range 16).map (bitByte j bit) :=
  rfl

/-- R10: exclusive-or of two blocks, byte by byte. -/
theorem blockBytes_xor (s t : Block) :
    blockBytes (s.xor t) = List.zipWith (· ^^^ ·) (blockBytes s) (blockBytes t) :=
  rfl

/-- Flipping a bit of a block is exclusive-or with the block that has that bit alone. -/
theorem flipBit_blockBytes (b : Block) (j : Nat) (bit : Fin 8) :
    flipBit (blockBytes b) j bit = blockBytes (b.xor (bitBlock j bit)) := by
  refine List.ext_getElem (by simp [flipBit]) fun i h _ => ?_
  simp only [flipBit, List.getElem_modify, blockBytes_xor, blockBytes_bitBlock, List.getElem_zipWith, List.getElem_map,
    List.getElem_range, bitByte]
  split <;> simp

/-- R156: a flipped bit of the first of two buffers leaves the second as it is. -/
theorem flipBit_append_of_lt {d : List Byte} {k : Nat} (hk : k < d.length) (e : List Byte) (bit : Fin 8) :
    flipBit (d ++ e) k bit = flipBit d k bit ++ e := by
  have hlt : k < (d ++ e).length := by rw [List.length_append]; omega
  rw [flipBit, flipBit, List.modify_eq_take_cons_drop hlt, List.modify_eq_take_cons_drop hk,
    List.take_append_of_le_length hk.le, List.drop_append_of_le_length hk, List.getElem_append_left hk,
    List.append_assoc, List.cons_append]

/-- R156: a flipped bit of the second of two buffers leaves the first as it is. -/
theorem flipBit_append_add (d e : List Byte) (k : Nat) (bit : Fin 8) :
    flipBit (d ++ e) (d.length + k) bit = d ++ flipBit e k bit :=
  List.modifyTailIdx_add _ k d e

/-- R156: flipping a bit of byte `i` of block `j` changes that block alone. -/
theorem flipBit_bytesOf (bs : List Block) (j : Nat) {i : Nat} (hi : i < 16) (bit : Fin 8) :
    flipBit (bytesOf bs) (16 * j + i) bit = bytesOf (bs.modify j (·.xor (bitBlock i bit))) := by
  induction bs generalizing j with
  | nil => simp [flipBit]
  | cons b bs ih =>
    cases j with
    | zero =>
      rw [Nat.mul_zero, Nat.zero_add, bytesOf_cons, flipBit_append_of_lt (by simpa using hi), flipBit_blockBytes]
      rfl
    | succ j =>
      rw [show 16 * (j + 1) + i = (blockBytes b).length + (16 * j + i) by rw [length_blockBytes]; omega, bytesOf_cons,
        flipBit_append_add, ih]
      rfl

/-- A bit set in a block is a change of the block. -/
theorem xor_bitBlock_ne (b : Block) {j : Nat} (hj : j < 16) (bit : Fin 8) : b.xor (bitBlock j bit) ≠ b := by
  intro h
  have hbit : ∀ n : Fin 8, 1#8 <<< n.val ≠ 0#8 := by decide
  have hlt : j < (blockBytes b).length := hj
  have hbyte := congrArg (·[j]?) ((flipBit_blockBytes b j bit).trans (congrArg blockBytes h))
  simp only [flipBit, List.getElem?_modify_eq, List.getElem?_eq_getElem hlt] at hbyte
  exact hbit bit (by simpa using hbyte)

/-- R137: DecryptBlock under one schedule takes different blocks to different blocks. -/
theorem decryptBlock_injective (w : RoundKeys) : Function.Injective (decryptBlock · w) :=
  Function.HasLeftInverse.injective ⟨(encryptBlock · w), (encryptBlock_decryptBlock · w)⟩

/-- Settles O34: the bit is exclusive-ored into one block, which DecryptBlock spoils, and stands in the next. -/
theorem oneFlippedBitSpoilsTwoBlocks : Obligations.OneFlippedBitSpoilsTwoBlocks := by
  intro c iv w k bit hc hk
  obtain ⟨cs, rfl⟩ := exists_bytesOf hc
  obtain ⟨j, i, hi, rfl⟩ : ∃ j i, i < 16 ∧ k = 16 * j + i := ⟨k / 16, k % 16, by omega, by omega⟩
  have hj : j < cs.length := by rw [length_bytesOf] at hk; omega
  rw [show (16 * j + i) / 16 = j by omega, show 16 * j + i + 16 = 16 * (j + 1) + i by omega]
  simp only [flipBit_bytesOf _ _ hi, chainDecrypt_bytesOf, blockAt_bytesOf]
  refine ⟨?_, fun _ => getElem?_chainDecryptBlocks_modify_succ w iv _ cs j,
    fun n hn hn1 => getElem?_chainDecryptBlocks_modify_of_ne w iv cs _ hn hn1⟩
  obtain ⟨b, p, hb, hp⟩ := exists_block_and_previous iv (rfl : cs.length = cs.length) hj
  rw [getElem?_chainDecryptBlocks_modify_self w iv hb hp, getElem?_chainDecryptBlocks w hb hp]
  intro h
  exact xor_bitBlock_ne b hi bit (decryptBlock_injective w (Block.xor_right_inj (Option.some.inj h)))

end Sys2Proof.Machine
end

section
/-! PROOF. Padding (`43_padding.md` R166 to R170): how many bytes Pad appends, which buffers Unpad accepts, and that the
padded ones are among them. -/

namespace Sys2Proof.Machine

/-- R166, with the block length of 16 written out. -/
theorem padLength_eq (len : Nat) : padLength len = 16 - len % 16 :=
  rfl

/-- R166: Pad appends `16 - len % 16` bytes of that value. -/
theorem pad_eq_append (d : List Byte) :
    pad d = d ++ List.replicate (16 - d.length % 16) (BitVec.ofNat 8 (16 - d.length % 16)) :=
  rfl

/-- R168: Unpad succeeds on the buffers that end in `p` bytes of value `p`, with `p` in 1..16, and on no other. -/
theorem unpad_eq_some_iff {d m : List Byte} :
    unpad d = some m ↔ ∃ p, 1 ≤ p ∧ p ≤ 16 ∧ d = m ++ List.replicate p (BitVec.ofNat 8 p) := by
  constructor
  · exact unpad_eq_some
  · rintro ⟨p, h1, h2, rfl⟩
    exact unpad_append m p h1 h2

/-- R170: what Pad appends is one of the endings that Unpad removes. -/
@[simp] theorem unpad_pad (d : List Byte) : unpad (pad d) = some d :=
  unpad_append d _ (padLength_bounds _).1 (padLength_bounds _).2

/-- Settles O36: every bound follows from the length that Pad adds. -/
theorem padLengthens : Obligations.PadLengthens := by
  intro d
  have hlen : (pad d).length = d.length + (16 - d.length % 16) := by rw [length_pad, padLength_eq]
  exact ⟨by omega, length_pad_mod d, by omega, by omega, by omega, by omega, pad_eq_append d⟩

/-- Settles O37: Pad appends such an ending, and Unpad accepts no buffer without one. -/
theorem unpadAcceptsExactlyPaddedBuffers : Obligations.UnpadAcceptsExactlyPaddedBuffers :=
  ⟨fun d => ⟨padLength d.length, (padLength_bounds _).1, (padLength_bounds _).2, padLength_eq _, pad_eq_append d⟩,
    fun _ _ => unpad_eq_some_iff⟩

/-- Settles O38: the byte `0x01` is the ending of one byte of value 1, padded or not. -/
theorem unpadUndoesPad : Obligations.UnpadUndoesPad :=
  fun d => ⟨unpad_pad d, unpad_append d 1 (by decide) (by decide)⟩

end Sys2Proof.Machine
end

section
/-! PROOF. Facts about commands that the statements of `44_commands.md` rest on. First what the one response to a command
tells of it: a response packet has one status and one data (`30_encoding.md` R76, R77), so an OK response to CBCENC or
CBCDEC says which path the command took. -/

namespace Sys2Proof.Machine

/-- R77: the seven status codes differ. -/
theorem Status.code_injective : Function.Injective Status.code :=
  fun _ _ h => Option.some.inj (by rw [← Status.ofCode?_code, h, Status.ofCode?_code])

/-- R76: the data begin after the same five bytes in every response packet. -/
theorem responsePacket_inj {st st' : Status} {d d' : List Byte} (h : responsePacket st d = responsePacket st' d') :
    st = st' ∧ d = d' := by
  obtain ⟨hcode, hrest⟩ := List.cons.inj h
  exact ⟨Status.code_injective hcode, (List.append_inj hrest rfl).2⟩

/-- R180: an outcome has one response. -/
theorem Responds.unique {s : State} {o : Host.Outcome State Fault Refusal} {st st' : Status} {d d' : List Byte}
    (h : Responds s o st d) (h' : Responds s o st' d') : st = st' ∧ d = d' := by
  obtain ⟨t, ht, hrsp, -⟩ := h
  obtain ⟨t', ht', hrsp', -⟩ := h'
  cases ht.symm.trans ht'
  exact responsePacket_inj (List.singleton_inj.1 (List.append_cancel_left (hrsp.symm.trans hrsp')))

/-- R207: a command that raises a failure responds with it and without data. -/
theorem Responds.of_raise {s : State} {o : Host.Outcome State Fault Refusal} {f : Failure} (h : o = .next (s.raise f)) :
    Responds s o (.failed f) [] :=
  h ▸ responds_raise s f

/-- R207: a command that raises a failure does not respond OK. -/
theorem not_responds_ok_of_raise {s : State} {o : Host.Outcome State Fault Refusal} {f : Failure} {d : List Byte}
    (h : o = .next (s.raise f)) : ¬Responds s o .ok d :=
  fun hok => nomatch (hok.unique (.of_raise h)).1

/-- R184: CBCENC is answered OK only with a key and an IV of one block, and then with the chained encryption of the
padded plaintext. -/
theorem eq_chainEncrypt_of_responds_ok {s : State} {a data c : List Byte}
    (h : Responds s (exec (.cbcenc a data) s) .ok c) :
    ∃ w iv, s.rk = some w ∧ blockOfBytes? a = some iv ∧ c = chainEncrypt (pad data) iv w := by
  obtain ⟨-, hr⟩ | ⟨_, -, -, hr⟩ | ⟨w, iv, hs, ha, hr⟩ := execCbcenc_cases a data s
  · exact absurd h (not_responds_ok_of_raise hr)
  · exact absurd h (not_responds_ok_of_raise hr)
  · exact ⟨w, iv, hs, ha, (h.unique (hr ▸ responds_obuf s _)).2⟩

/-- R187: CBCDEC is answered OK only after a ciphertext of whole blocks, with what its decryption unpads to. -/
theorem unpad_of_responds_ok {s : State} {w : RoundKeys} {a data plain : List Byte} {iv : Block} (hs : s.rk = some w)
    (ha : blockOfBytes? a = some iv) (h : Responds s (exec (.cbcdec a data) s) .ok plain) :
    data.length % 16 = 0 ∧ unpad (chainDecrypt data iv w) = some plain := by
  by_cases hl : data.length = 0 ∨ data.length % 16 ≠ 0
  · exact absurd h (not_responds_ok_of_raise (exec_cbcdec_badLength hs ha hl))
  · cases hu : unpad (chainDecrypt data iv w) with
    | none => exact absurd h (not_responds_ok_of_raise (exec_cbcdec_badPadding hs ha hl hu))
    | some m =>
      obtain rfl := (h.unique (exec_cbcdec_ok hs ha hl hu ▸ responds_obuf s m)).2
      exact ⟨by omega, rfl⟩

/-! ### What a failing command leaves, and the step around a command -/

/-- R22, R207: a command that answers another status than OK leaves the store: the one path that writes it is a BIND that
answers OK. -/
theorem Answers.storeAfter_eq_of_ne_ok {i : Instr} {rk : Option RoundKeys} {status : Status} {data : List Byte}
    (h : Answers i rk status data) (hne : status ≠ .ok) : storeAfter i rk = rk := by
  obtain hkept | ⟨a, k, rfl, ha, -⟩ := storeAfter_cases i rk
  · exact hkept
  · have hnext := (h.outcome { State.reset with rk := rk } rfl).symm.trans (exec_bind_ok ha)
    have hrsp := congrArg State.rsp (Host.Outcome.next.inj hnext)
    exact absurd (responsePacket_inj (List.singleton_inj.1 hrsp)).1 hne

/-- R79: the response of a step to a packet that decodes is the response of the command to the taken packet. -/
theorem stepResponds_of_responds {s : State} {p : Packet} {rest : List PortEvent} {i : Instr} {status : Status}
    {data : List Byte} (hcmd : s.cmd = .command p :: rest) (hd : decode s.maxLen p = .ok i)
    (h : Responds (s.takePacket p) (exec i (s.takePacket p)) status data) : StepResponds s status data := by
  obtain ⟨t, ht, hrsp, hkeeps⟩ := h
  exact ⟨t, (step_command_ok hcmd hd).trans ht, hrsp, hkeeps.rk, hkeeps.maxLen, hkeeps.cmd, hkeeps.ibuf, hkeeps.obuf⟩

/-! ### `KV`, and what Unpad makes of a decryption -/

/-- R22: `KV = 0` is a store without a schedule. -/
theorem State.kv_eq_false_iff (s : State) : s.kv = false ↔ s.rk = none :=
  Option.isSome_eq_false_iff.trans Option.isNone_iff_eq_none

/-- R22: `KV = 1` is a store with a schedule. -/
theorem State.kv_eq_true_iff (s : State) : s.kv = true ↔ ∃ w, s.rk = some w :=
  Option.isSome_iff_exists

/-- R168: the last byte of a buffer that unpads counts the bytes that Unpad removes, 1 to 16. -/
theorem exists_getLast?_of_unpad {d m : List Byte} (h : unpad d = some m) :
    ∃ p : Byte, d.getLast? = some p ∧ 1 ≤ p.toNat ∧ p.toNat ≤ 16 ∧ m.length + p.toNat = d.length := by
  obtain ⟨p, h1, h16, rfl⟩ := unpad_eq_some h
  have hp : (BitVec.ofNat 8 p).toNat = p := by rw [BitVec.toNat_ofNat, Nat.mod_eq_of_lt (by omega)]
  refine ⟨BitVec.ofNat 8 p, ?_, by omega, by omega, by simp [hp]⟩
  rw [List.getLast?_append, List.getLast?_replicate, if_neg (by omega), Option.some_or]

/-- R189: the decryption of an encrypted plaintext is the padded plaintext, and unpads to it. -/
theorem unpad_chainDecrypt_chainEncrypt_pad (plain : List Byte) (iv : Block) (w : RoundKeys) :
    unpad (chainDecrypt (chainEncrypt (pad plain) iv w) iv w) = some plain := by
  rw [chainsAreInverse _ iv w (length_pad_mod plain), unpad_pad]

end Sys2Proof.Machine
end

section
/-! PROOF. The commands (`44_commands.md`): where each fails, how long its data are, and that CBCDEC undoes CBCENC. -/

namespace Sys2Proof.Machine

/-- Settles O40: a key of another length is no block, and a packet that does not decode is no command. -/
theorem failedBindChangesNothing : Obligations.FailedBindChangesNothing :=
  ⟨fun _ a ha => .of_raise (exec_bind_badKey ((blockOfBytes?_eq_none_iff a).2 ha)),
    fun _ _ _ _ hcmd hd => stepResponds_badCommand hcmd fun _ hi => nomatch hd.symm.trans hi⟩

/-- Settles O43: each of the two checks raises its failure. -/
theorem cbcencFailures : Obligations.CbcencFailures := by
  refine fun s a data => ⟨fun hkv => ?_, fun hkv ha => ?_⟩
  · exact .of_raise (exec_cbcenc_noKey (s.kv_eq_false_iff.1 hkv))
  · obtain ⟨w, hw⟩ := s.kv_eq_true_iff.1 hkv
    exact .of_raise (exec_cbcenc_badIv hw ((blockOfBytes?_eq_none_iff a).2 ha))

/-- Settles O44: ChainEncrypt keeps the length that Pad gives. -/
theorem ciphertextLength : Obligations.CiphertextLength := by
  intro s a data c hmax h
  obtain ⟨w, iv, -, -, rfl⟩ := eq_chainEncrypt_of_responds_ok h
  obtain ⟨hlen, hmod, hge, -⟩ := padLengthens data
  rw [length_chainEncrypt hmod]
  exact ⟨hlen, hmod, hge, by omega⟩

/-- Settles O46: each of the four checks raises its failure once those before it have passed. -/
theorem cbcdecFailures : Obligations.CbcdecFailures := by
  refine fun s a data => ⟨fun hkv => ?_, fun hkv ha => ?_, fun hkv ha hl => ?_, fun w iv hw hiv hne hmod hu => ?_⟩
  · exact .of_raise (exec_cbcdec_noKey (s.kv_eq_false_iff.1 hkv))
  · obtain ⟨w, hw⟩ := s.kv_eq_true_iff.1 hkv
    exact .of_raise (exec_cbcdec_badIv hw ((blockOfBytes?_eq_none_iff a).2 ha))
  · obtain ⟨w, hw⟩ := s.kv_eq_true_iff.1 hkv
    obtain ⟨iv, hiv, -⟩ := blockOfBytes?_of_length ha
    exact .of_raise (exec_cbcdec_badLength hw hiv hl)
  · exact .of_raise (exec_cbcdec_badPadding hw hiv (by omega) hu)

/-- Settles O47: ChainDecrypt keeps the length, and the last byte counts what Unpad removes. -/
theorem plaintextLength : Obligations.PlaintextLength := by
  intro s w a data plain iv hs ha h
  obtain ⟨hmod, hu⟩ := unpad_of_responds_ok hs ha h
  obtain ⟨p, hlast, h1, h16, hlen⟩ := exists_getLast?_of_unpad hu
  rw [length_chainDecrypt hmod] at hlen
  exact ⟨p, hlast, h1, h16, hlen, by omega, by omega⟩

/-- Settles O48: the one answer of a command has no data on a failure, and leaves the store then. -/
theorem failuresLeaveNoTrace : Obligations.FailuresLeaveNoTrace := by
  intro i s
  obtain ⟨status, data, hans⟩ := exec_answers i s.rk
  exact ⟨_, status, data, hans.outcome s rfl, rfl,
    fun hne => ⟨hans.noData hne, hans.storeAfter_eq_of_ne_ok hne, rfl, rfl, rfl, rfl⟩⟩

/-- Settles O51: the ciphertext is within the limit of CBCDEC, so both packets decode, and every check of CBCDEC passes
on it. -/
theorem decryptionUndoesEncryption : Obligations.DecryptionUndoesEncryption := by
  intro s w a plain rest hs ha hplain hcmd
  have halen : a.length ≤ 255 := by omega
  have henc := decodeOfEncode s.maxLen (.cbcenc a plain) ((wellFormed_iff _ _).2 ⟨halen, hplain⟩)
  obtain ⟨iv, hiv, -, hresp⟩ := cbcencCompletes (s.takePacket _) w a plain hs ha
  refine ⟨chainEncrypt (pad plain) iv w, stepResponds_of_responds hcmd henc hresp, fun t rest' hsame htcmd => ?_⟩
  obtain ⟨-, hmod, hge, -⟩ := padLengthens plain
  have hlen := length_chainEncrypt hmod iv w
  have hfits : (chainEncrypt (pad plain) iv w).length ≤ t.maxLen.val + 16 := by
    rw [← hsame.maxLen]
    exact (length_chainEncrypt_pad_le plain iv w).trans (Nat.add_le_add_right hplain 16)
  have hdec := decodeOfEncode t.maxLen (.cbcdec a (chainEncrypt (pad plain) iv w))
    ((wellFormed_iff _ _).2 ⟨halen, hfits⟩)
  exact stepResponds_of_responds htcmd hdec (cbcdecCompletes _ w a _ plain iv (hsame.rk.symm.trans hs) hiv
    (by omega) (by omega) (unpad_chainDecrypt_chainEncrypt_pad plain iv w))

/-- Settles O53: both BINDs complete, with the one response of a BIND that completes. -/
theorem bindResponseHidesTheKey : Obligations.BindResponseHidesTheKey := by
  intro s t a b ha hb
  obtain ⟨_, s', -, -, hs', -, -, hrsp, -⟩ := bindWithSixteenBytesBinds s a ha
  obtain ⟨_, t', -, -, ht', -, -, hrsp', -⟩ := bindWithSixteenBytesBinds t b hb
  exact ⟨s', t', _, hs', ht', hrsp, hrsp'⟩

end Sys2Proof.Machine
end

section
/-! PROOF. Which failure a step reports (`60_exceptions.md` R208). The first failure that applies to a packet is written
out as the checks of each command in their order; under each check stands the response that the command gives. -/

namespace Sys2Proof.Machine

/-! ### The first failure that applies -/

/-- R208: the first of the failures that apply, in the order of the rule; none if none applies. -/
def firstFailure (s : State) (p : Packet) : Option Failure :=
  failurePriority.find? (failureApplies s p)

/-- R208: the priority, as a chain of tests. -/
theorem firstFailure_eq (s : State) (p : Packet) :
    firstFailure s p =
      if failureApplies s p .badCommand then some .badCommand
      else if failureApplies s p .noKey then some .noKey
      else if failureApplies s p .invalidKeyLength then some .invalidKeyLength
      else if failureApplies s p .invalidIvLength then some .invalidIvLength
      else if failureApplies s p .invalidCiphertextLength then some .invalidCiphertextLength
      else if failureApplies s p .paddingError then some .paddingError
      else none := by
  simp only [firstFailure, failurePriority, List.find?_cons, List.find?_nil]
  split_ifs <;> simp_all

/-- R206: of a packet that decodes to no command. -/
theorem firstFailure_error {s : State} {p : Packet} {r : Malformed} (hd : decode s.maxLen p = .error r) :
    firstFailure s p = some .badCommand := by
  simp [firstFailure_eq, failureApplies, hd]

/-- R201: of a BIND. -/
theorem firstFailure_bind {s : State} {p : Packet} {a : List Byte} (hd : decode s.maxLen p = .ok (.bind a)) :
    firstFailure s p = if a.length ≠ 16 then some .invalidKeyLength else none := by
  simp [firstFailure_eq, failureApplies, hd]

/-- R202, R205: of a CBCENC. -/
theorem firstFailure_cbcenc {s : State} {p : Packet} {a data : List Byte}
    (hd : decode s.maxLen p = .ok (.cbcenc a data)) :
    firstFailure s p =
      if s.kv = false then some .noKey else if a.length ≠ 16 then some .invalidIvLength else none := by
  simp [firstFailure_eq, failureApplies, hd]

/-- R202 to R205: of a CBCDEC. -/
theorem firstFailure_cbcdec {s : State} {p : Packet} {a data : List Byte}
    (hd : decode s.maxLen p = .ok (.cbcdec a data)) :
    firstFailure s p =
      if s.kv = false then some .noKey
      else if a.length ≠ 16 then some .invalidIvLength
      else if data.length = 0 ∨ data.length % 16 ≠ 0 then some .invalidCiphertextLength
      else if failureApplies s p .paddingError then some .paddingError
      else none := by
  simp [firstFailure_eq, failureApplies, hd]

/-- R204: the cause of PaddingError, once there are a key and an IV to decrypt with. -/
theorem failureApplies_paddingError_iff {s : State} {p : Packet} {a data : List Byte} {w : RoundKeys} {iv : Block}
    (hd : decode s.maxLen p = .ok (.cbcdec a data)) (hs : s.rk = some w) (ha : blockOfBytes? a = some iv) :
    failureApplies s p .paddingError = true ↔ unpad (chainDecrypt data iv w) = none := by
  simp only [failureApplies, hd, hs, ha, Option.isNone_iff_eq_none]

/-! ### The step reports it -/

/-- R180, R208: the step answers the failure and nothing else changes, or, where there is none, it answers OK. -/
def StepReports (s : State) : Option Failure → Prop
  | some f => StepResponds s (.failed f) []
  | none => ∃ t data, step s = .next t ∧ t.rsp = s.rsp ++ [responsePacket .ok data]

/-- R180: an OK response to a command that keeps the binding reports no failure. -/
theorem stepReports_none_of_responds {s : State} {p : Packet} {rest : List PortEvent} {i : Instr} {data : List Byte}
    (hcmd : s.cmd = .command p :: rest) (hd : decode s.maxLen p = .ok i)
    (h : Responds (s.takePacket p) (exec i (s.takePacket p)) .ok data) : StepReports s none := by
  obtain ⟨t, ht, hrsp, -⟩ := stepResponds_of_responds hcmd hd h
  exact ⟨t, data, ht, hrsp⟩

section
variable {s : State} {p : Packet} {rest : List PortEvent} {a data : List Byte}

/-- R181: the one check of BIND. -/
theorem stepReports_bind (hcmd : s.cmd = .command p :: rest) (hd : decode s.maxLen p = .ok (.bind a)) :
    StepReports s (firstFailure s p) := by
  rw [firstFailure_bind hd]
  split_ifs with ha
  · exact stepResponds_of_responds hcmd hd (failedBindChangesNothing.1 _ a ha)
  · obtain ⟨_, t, -, -, ht, -, -, hrsp, -⟩ := bindWithSixteenBytesBinds (s.takePacket p) a (not_not.1 ha)
    exact ⟨t, [], (step_command_ok hcmd hd).trans ht, hrsp⟩

/-- R184: the two checks of CBCENC. -/
theorem stepReports_cbcenc (hcmd : s.cmd = .command p :: rest) (hd : decode s.maxLen p = .ok (.cbcenc a data)) :
    StepReports s (firstFailure s p) := by
  obtain ⟨hnoKey, hbadIv⟩ := cbcencFailures (s.takePacket p) a data
  rw [firstFailure_cbcenc hd]
  split_ifs with hkv ha
  · exact stepResponds_of_responds hcmd hd (hnoKey hkv)
  all_goals rw [Bool.not_eq_false] at hkv
  · exact stepResponds_of_responds hcmd hd (hbadIv hkv ha)
  · obtain ⟨w, hw⟩ := s.kv_eq_true_iff.1 hkv
    obtain ⟨_, -, -, hok⟩ := cbcencCompletes (s.takePacket p) w a data hw (not_not.1 ha)
    exact stepReports_none_of_responds hcmd hd hok

/-- R187: the four checks of CBCDEC. -/
theorem stepReports_cbcdec (hcmd : s.cmd = .command p :: rest) (hd : decode s.maxLen p = .ok (.cbcdec a data)) :
    StepReports s (firstFailure s p) := by
  obtain ⟨hnoKey, hbadIv, hbadLength, hbadPadding⟩ := cbcdecFailures (s.takePacket p) a data
  rw [firstFailure_cbcdec hd]
  split_ifs with hkv ha hl hpad
  · exact stepResponds_of_responds hcmd hd (hnoKey hkv)
  all_goals rw [Bool.not_eq_false] at hkv
  · exact stepResponds_of_responds hcmd hd (hbadIv hkv ha)
  · exact stepResponds_of_responds hcmd hd (hbadLength hkv (not_not.1 ha) hl)
  all_goals
    obtain ⟨w, hw⟩ := s.kv_eq_true_iff.1 hkv
    obtain ⟨iv, hiv, -⟩ := blockOfBytes?_of_length (not_not.1 ha)
    rw [failureApplies_paddingError_iff hd hw hiv] at hpad
  · exact stepResponds_of_responds hcmd hd (hbadPadding w iv hw hiv (by omega) (by omega) hpad)
  · obtain ⟨plain, hplain⟩ := Option.ne_none_iff_exists'.1 hpad
    exact stepReports_none_of_responds hcmd hd
      (cbcdecCompletes _ w a data plain iv hw hiv (by omega) (by omega) hplain)

end

/-- R208: whatever the packet is, the step reports the first failure that applies to it. -/
theorem stepReports_firstFailure {s : State} {p : Packet} {rest : List PortEvent} (hcmd : s.cmd = .command p :: rest) :
    StepReports s (firstFailure s p) := by
  cases hd : decode s.maxLen p with
  | error r =>
    rw [firstFailure_error hd]
    exact stepResponds_badCommand hcmd fun _ hi => nomatch hd.symm.trans hi
  | ok i =>
    cases i with
    | bind a => exact stepReports_bind hcmd hd
    | cbcenc a data => exact stepReports_cbcenc hcmd hd
    | cbcdec a data => exact stepReports_cbcdec hcmd hd

/-- Settles O50: the checks of each command stand in the order of the rule. -/
theorem theFirstFailureIsReported : Obligations.TheFirstFailureIsReported := by
  intro s p rest hcmd
  have h : StepReports s (failurePriority.find? (failureApplies s p)) := stepReports_firstFailure hcmd
  exact ⟨fun f hf => by rwa [hf] at h, fun hnone => by rwa [hnone] at h⟩

end Sys2Proof.Machine
end

section
/-! PROOF. The step with nothing presented (`70_reset_and_hazards.md` R232). -/

namespace Sys2Proof.Machine

/-- Settles O9: of the things a step can do, only waiting needs no event at the ports, and it changes nothing. -/
theorem stepWaitsForAPacket : Obligations.StepWaitsForAPacket := by
  intro s hcmd
  exact step_idle hcmd

end Sys2Proof.Machine
end
